-- ==== Sys2Proof/Word.lean ====
section
/-! DEFINITION. The word types of the Interpreter Core (00_scope.md R5, R7, R8). Every value is unsigned. -/

namespace Sys2Proof

/-- A memory byte, a general register, a timer or the immediate `nn`: 8 bits (R5). -/
abbrev Byte := BitVec 8

/-- An instruction word, the program counter, the address register or a stack entry: 16 bits (R5). -/
abbrev Word := BitVec 16

/-- The address field `nnn`: 12 bits (R73). -/
abbrev Addr := BitVec 12

/-- The immediate field `n`, the row count of Dxyn: 4 bits (R73). -/
abbrev Nibble := BitVec 4

/-- A general register index, 0x0 to 0xF (R22). -/
abbrev Reg := Fin 16

/-- A logical key, 0x0 to 0xF (R185). -/
abbrev Key := Fin 16

/-- VF, register 0xF, the flag output (R23). -/
abbrev vF : Reg := 15

/-- Memory size in bytes (R5, R50). -/
abbrev memorySize : Nat := 4096

end Sys2Proof
end

