-- ==== Sys2Proof/Syntax.lean ====
section
/-! DEFINITION. The 34 instructions, one constructor per row of spec/opcode_table.json, in the table's order
(30_encoding.md R75). The operand types are the fields' widths (R73), so an operand out of range cannot be written. -/

namespace Sys2Proof

/-- An instruction. `x` and `y` are register indices, `nn` a byte, `nnn` an address, `n` a row count (R73). -/
inductive Instr where
  | cls                               -- 00E0  CLS
  | ret                               -- 00EE  RET
  | jp (nnn : Addr)                   -- 1nnn  JP nnn
  | call (nnn : Addr)                 -- 2nnn  CALL nnn
  | seImm (x : Reg) (nn : Byte)       -- 3xnn  SE Vx, nn
  | sneImm (x : Reg) (nn : Byte)      -- 4xnn  SNE Vx, nn
  | seReg (x y : Reg)                 -- 5xy0  SE Vx, Vy
  | ldImm (x : Reg) (nn : Byte)       -- 6xnn  LD Vx, nn
  | addImm (x : Reg) (nn : Byte)      -- 7xnn  ADD Vx, nn
  | ldReg (x y : Reg)                 -- 8xy0  LD Vx, Vy
  | orReg (x y : Reg)                 -- 8xy1  OR Vx, Vy
  | andReg (x y : Reg)                -- 8xy2  AND Vx, Vy
  | xorReg (x y : Reg)                -- 8xy3  XOR Vx, Vy
  | addReg (x y : Reg)                -- 8xy4  ADD Vx, Vy
  | subReg (x y : Reg)                -- 8xy5  SUB Vx, Vy
  | shrReg (x y : Reg)                -- 8xy6  SHR Vx, Vy (y is encoded, not read)
  | subnReg (x y : Reg)               -- 8xy7  SUBN Vx, Vy
  | shlReg (x y : Reg)                -- 8xyE  SHL Vx, Vy (y is encoded, not read)
  | sneReg (x y : Reg)                -- 9xy0  SNE Vx, Vy
  | ldI (nnn : Addr)                  -- Annn  LD I, nnn
  | jpV0 (nnn : Addr)                 -- Bnnn  JP V0, nnn
  | rnd (x : Reg) (nn : Byte)         -- Cxnn  RND Vx, nn
  | drw (x y : Reg) (n : Nibble)      -- Dxyn  DRW Vx, Vy, n
  | skp (x : Reg)                     -- Ex9E  SKP Vx
  | sknp (x : Reg)                    -- ExA1  SKNP Vx
  | ldVxDt (x : Reg)                  -- Fx07  LD Vx, DT
  | ldVxK (x : Reg)                   -- Fx0A  LD Vx, K
  | ldDtVx (x : Reg)                  -- Fx15  LD DT, Vx
  | ldStVx (x : Reg)                  -- Fx18  LD ST, Vx
  | addI (x : Reg)                    -- Fx1E  ADD I, Vx
  | ldF (x : Reg)                     -- Fx29  LD F, Vx
  | ldB (x : Reg)                     -- Fx33  LD B, Vx
  | storeRegs (x : Reg)               -- Fx55  LD [I], Vx
  | loadRegs (x : Reg)                -- Fx65  LD Vx, [I]
deriving DecidableEq, Repr

/-! ### The spec's assembler syntax (30_encoding.md R79, D13). It carries no meaning. -/

/-- A hexadecimal digit. -/
def hexDigit (d : Fin 16) : String :=
  (["0", "1", "2", "3", "4", "5", "6", "7"] ++ ["8", "9", "A", "B", "C", "D", "E", "F"]).getD d.val ""

/-- The lowest `k` hexadecimal digits of a number, highest first. -/
def hexDigits (n : Nat) : Nat → String
  | 0 => ""
  | k + 1 => hexDigits (n / 16) k ++ hexDigit (Fin.ofNat 16 n)

/-- V0 to VF. -/
def regName (x : Reg) : String := "V" ++ hexDigit x

/-- An immediate byte. -/
def byteName (nn : Byte) : String := "0x" ++ hexDigits nn.toNat 2

/-- An address. -/
def addrName (nnn : Addr) : String := "0x" ++ hexDigits nnn.toNat 3

/-- An instruction's syntax. -/
def assembly : Instr → String
  | .cls => "CLS"
  | .ret => "RET"
  | .jp nnn => "JP " ++ addrName nnn
  | .call nnn => "CALL " ++ addrName nnn
  | .seImm x nn => "SE " ++ regName x ++ ", " ++ byteName nn
  | .sneImm x nn => "SNE " ++ regName x ++ ", " ++ byteName nn
  | .seReg x y => "SE " ++ regName x ++ ", " ++ regName y
  | .ldImm x nn => "LD " ++ regName x ++ ", " ++ byteName nn
  | .addImm x nn => "ADD " ++ regName x ++ ", " ++ byteName nn
  | .ldReg x y => "LD " ++ regName x ++ ", " ++ regName y
  | .orReg x y => "OR " ++ regName x ++ ", " ++ regName y
  | .andReg x y => "AND " ++ regName x ++ ", " ++ regName y
  | .xorReg x y => "XOR " ++ regName x ++ ", " ++ regName y
  | .addReg x y => "ADD " ++ regName x ++ ", " ++ regName y
  | .subReg x y => "SUB " ++ regName x ++ ", " ++ regName y
  | .shrReg x y => "SHR " ++ regName x ++ ", " ++ regName y
  | .subnReg x y => "SUBN " ++ regName x ++ ", " ++ regName y
  | .shlReg x y => "SHL " ++ regName x ++ ", " ++ regName y
  | .sneReg x y => "SNE " ++ regName x ++ ", " ++ regName y
  | .ldI nnn => "LD I, " ++ addrName nnn
  | .jpV0 nnn => "JP V0, " ++ addrName nnn
  | .rnd x nn => "RND " ++ regName x ++ ", " ++ byteName nn
  | .drw x y n => "DRW " ++ regName x ++ ", " ++ regName y ++ ", " ++ hexDigit n.toFin
  | .skp x => "SKP " ++ regName x
  | .sknp x => "SKNP " ++ regName x
  | .ldVxDt x => "LD " ++ regName x ++ ", DT"
  | .ldVxK x => "LD " ++ regName x ++ ", K"
  | .ldDtVx x => "LD DT, " ++ regName x
  | .ldStVx x => "LD ST, " ++ regName x
  | .addI x => "ADD I, " ++ regName x
  | .ldF x => "LD F, " ++ regName x
  | .ldB x => "LD B, " ++ regName x
  | .storeRegs x => "LD [I], " ++ regName x
  | .loadRegs x => "LD " ++ regName x ++ ", [I]"

/-- The syntax of an unknown word. -/
def assemblyData (op : Word) : String := "DW 0x" ++ hexDigits op.toNat 4

end Sys2Proof
end

