-- ==== Sys2Proof/Decode.lean ====
section
/-! DEFINITION. The decoder (30_encoding.md R73-R78), total on every word and on every list of bytes, and after it
the encoder written from the same opcode map. -/

namespace Sys2Proof

/-- Why a decoder gives no instruction. The word-level reasons are R78's reserved regions; the step turns each into
the report of R76. -/
inductive Reject where
  | truncated   -- fewer than the two bytes of an instruction (R77); only a list of bytes can be too short
  | group0      -- group 0x0 and neither 0x00E0 nor 0x00EE
  | group5      -- 5xyn with n != 0
  | group8      -- 8xyn with n in 8, 9, A, B, C, D, F
  | group9      -- 9xyn with n != 0
  | groupE      -- Exnn with nn not in 9E, A1
  | groupF      -- Fxnn with nn not in 07, 0A, 15, 18, 1E, 29, 33, 55, 65
deriving DecidableEq, Repr

/-! ### Fields (R73) -/

/-- The register index a four-bit field holds. -/
def regOfBits (b : BitVec 4) : Reg := ⟨b.toNat, b.isLt⟩

/-- op[15:12]. -/
def fieldGroup (op : Word) : BitVec 4 := op.extractLsb' 12 4
/-- op[11:8], a register index. -/
def fieldX (op : Word) : Reg := regOfBits (op.extractLsb' 8 4)
/-- op[7:4], a register index. -/
def fieldY (op : Word) : Reg := regOfBits (op.extractLsb' 4 4)
/-- op[3:0]. -/
def fieldN (op : Word) : Nibble := op.extractLsb' 0 4
/-- op[7:0]. -/
def fieldNN (op : Word) : Byte := op.extractLsb' 0 8
/-- op[11:0]. -/
def fieldNNN (op : Word) : Addr := op.extractLsb' 0 12

/-! ### The opcode map (R75) -/

/-- Group 0 compares the whole word (R75, G10). -/
def decodeGroup0 (op : Word) : Except Reject Instr :=
  if op = 0x00E0 then .ok .cls
  else if op = 0x00EE then .ok .ret
  else .error .group0

/-- Group 5: only subcode 0 is defined. -/
def decodeGroup5 (op : Word) : Except Reject Instr :=
  if fieldN op = 0x0 then .ok (.seReg (fieldX op) (fieldY op)) else .error .group5

/-- Group 8: the register-register operations, selected by n (R75, R141). -/
def decodeGroup8 (op : Word) : Except Reject Instr :=
  if fieldN op = 0x0 then .ok (.ldReg (fieldX op) (fieldY op))
  else if fieldN op = 0x1 then .ok (.orReg (fieldX op) (fieldY op))
  else if fieldN op = 0x2 then .ok (.andReg (fieldX op) (fieldY op))
  else if fieldN op = 0x3 then .ok (.xorReg (fieldX op) (fieldY op))
  else if fieldN op = 0x4 then .ok (.addReg (fieldX op) (fieldY op))
  else if fieldN op = 0x5 then .ok (.subReg (fieldX op) (fieldY op))
  else if fieldN op = 0x6 then .ok (.shrReg (fieldX op) (fieldY op))
  else if fieldN op = 0x7 then .ok (.subnReg (fieldX op) (fieldY op))
  else if fieldN op = 0xE then .ok (.shlReg (fieldX op) (fieldY op))
  else .error .group8

/-- Group 9: only subcode 0 is defined. -/
def decodeGroup9 (op : Word) : Except Reject Instr :=
  if fieldN op = 0x0 then .ok (.sneReg (fieldX op) (fieldY op)) else .error .group9

/-- Group E: the key tests, selected by nn. -/
def decodeGroupE (op : Word) : Except Reject Instr :=
  if fieldNN op = 0x9E then .ok (.skp (fieldX op))
  else if fieldNN op = 0xA1 then .ok (.sknp (fieldX op))
  else .error .groupE

/-- Group F: timers, key wait and I, selected by nn. -/
def decodeGroupF (op : Word) : Except Reject Instr :=
  if fieldNN op = 0x07 then .ok (.ldVxDt (fieldX op))
  else if fieldNN op = 0x0A then .ok (.ldVxK (fieldX op))
  else if fieldNN op = 0x15 then .ok (.ldDtVx (fieldX op))
  else if fieldNN op = 0x18 then .ok (.ldStVx (fieldX op))
  else if fieldNN op = 0x1E then .ok (.addI (fieldX op))
  else if fieldNN op = 0x29 then .ok (.ldF (fieldX op))
  else if fieldNN op = 0x33 then .ok (.ldB (fieldX op))
  else if fieldNN op = 0x55 then .ok (.storeRegs (fieldX op))
  else if fieldNN op = 0x65 then .ok (.loadRegs (fieldX op))
  else .error .groupF

/-- Decode one word: the group selects, then the subcode (R75). A function of the word alone (R77). The group is four
bits wide, so the last arm is group 0xF. -/
def decode (op : Word) : Except Reject Instr :=
  match (fieldGroup op).toNat with
  | 0x0 => decodeGroup0 op
  | 0x1 => .ok (.jp (fieldNNN op))
  | 0x2 => .ok (.call (fieldNNN op))
  | 0x3 => .ok (.seImm (fieldX op) (fieldNN op))
  | 0x4 => .ok (.sneImm (fieldX op) (fieldNN op))
  | 0x5 => decodeGroup5 op
  | 0x6 => .ok (.ldImm (fieldX op) (fieldNN op))
  | 0x7 => .ok (.addImm (fieldX op) (fieldNN op))
  | 0x8 => decodeGroup8 op
  | 0x9 => decodeGroup9 op
  | 0xA => .ok (.ldI (fieldNNN op))
  | 0xB => .ok (.jpV0 (fieldNNN op))
  | 0xC => .ok (.rnd (fieldX op) (fieldNN op))
  | 0xD => .ok (.drw (fieldX op) (fieldY op) (fieldN op))
  | 0xE => decodeGroupE op
  | _   => decodeGroupF op

/-! ### Bytes (R54, R71, R77) -/

/-- Two bytes combined big-endian: the byte at the lower address is the high byte (R54, R71). -/
def wordOfBytes (hi lo : Byte) : Word := hi ++ lo

/-- The byte of a word stored at the lower address. -/
def highByte (op : Word) : Byte := op.extractLsb' 8 8

/-- The byte of a word stored at the higher address. -/
def lowByte (op : Word) : Byte := op.extractLsb' 0 8

/-- A word's bytes as memory holds them, lowest address first. -/
def bytesOfWord (op : Word) : List Byte := [highByte op, lowByte op]

/-- Decode the instruction at the head of a list of bytes; the rest of the list comes with it. -/
def decodeBytes : List Byte → Except Reject (Instr × List Byte)
  | hi :: lo :: rest =>
    match decode (wordOfBytes hi lo) with
    | .ok i => .ok (i, rest)
    | .error e => .error e
  | _ => .error .truncated

/-- The word the opcode table numbers `w` over `nbits` bits: every bit from `nbits` up is 0, and an instruction is
one word long (R77). -/
def tableWord (nbits w : Nat) : Word := BitVec.ofNat 16 (w % 2 ^ nbits)

/-- The instruction the decoder reads from a table word laid out in bytes. -/
def decodeTableWord (nbits w : Nat) : Option Instr :=
  match decodeBytes (bytesOfWord (tableWord nbits w)) with
  | .ok (i, _) => some i
  | .error _ => none

/-! ### The encoder -/

/-- The four bits of a register field. -/
def regBits (x : Reg) : BitVec 4 := BitVec.ofNat 4 x.val

/-- A word of a group and an address. -/
def encodeNNN (group : BitVec 4) (nnn : Addr) : Word := group ++ nnn

/-- A word of a group, a register and a byte (an immediate or a subcode). -/
def encodeXNN (group : BitVec 4) (x : Reg) (nn : Byte) : Word := group ++ (regBits x ++ nn)

/-- A word of a group, two registers and a nibble (a count or a subcode). -/
def encodeXYN (group : BitVec 4) (x y : Reg) (n : Nibble) : Word := group ++ (regBits x ++ (regBits y ++ n))

/-- The word of an instruction (R75 and spec/opcode_table.json). -/
def encode : Instr → Word
  | .cls => 0x00E0
  | .ret => 0x00EE
  | .jp nnn => encodeNNN 0x1 nnn
  | .call nnn => encodeNNN 0x2 nnn
  | .seImm x nn => encodeXNN 0x3 x nn
  | .sneImm x nn => encodeXNN 0x4 x nn
  | .seReg x y => encodeXYN 0x5 x y 0x0
  | .ldImm x nn => encodeXNN 0x6 x nn
  | .addImm x nn => encodeXNN 0x7 x nn
  | .ldReg x y => encodeXYN 0x8 x y 0x0
  | .orReg x y => encodeXYN 0x8 x y 0x1
  | .andReg x y => encodeXYN 0x8 x y 0x2
  | .xorReg x y => encodeXYN 0x8 x y 0x3
  | .addReg x y => encodeXYN 0x8 x y 0x4
  | .subReg x y => encodeXYN 0x8 x y 0x5
  | .shrReg x y => encodeXYN 0x8 x y 0x6
  | .subnReg x y => encodeXYN 0x8 x y 0x7
  | .shlReg x y => encodeXYN 0x8 x y 0xE
  | .sneReg x y => encodeXYN 0x9 x y 0x0
  | .ldI nnn => encodeNNN 0xA nnn
  | .jpV0 nnn => encodeNNN 0xB nnn
  | .rnd x nn => encodeXNN 0xC x nn
  | .drw x y n => encodeXYN 0xD x y n
  | .skp x => encodeXNN 0xE x 0x9E
  | .sknp x => encodeXNN 0xE x 0xA1
  | .ldVxDt x => encodeXNN 0xF x 0x07
  | .ldVxK x => encodeXNN 0xF x 0x0A
  | .ldDtVx x => encodeXNN 0xF x 0x15
  | .ldStVx x => encodeXNN 0xF x 0x18
  | .addI x => encodeXNN 0xF x 0x1E
  | .ldF x => encodeXNN 0xF x 0x29
  | .ldB x => encodeXNN 0xF x 0x33
  | .storeRegs x => encodeXNN 0xF x 0x55
  | .loadRegs x => encodeXNN 0xF x 0x65

end Sys2Proof
end

