-- ==== Sys2Proof/Config.lean ====
section
/-! DEFINITION. The parameters of 00_scope.md R6 and the free values the host supplies. -/

namespace Sys2Proof

/-- How Ex9E and ExA1 turn a register value into a key number (R166, D5). -/
inductive KeyIndexMode where
  | mask                -- the low four bits of the value (the default)
  | invalidNotPressed   -- a value above 0xF names no key, and no such key is pressed
deriving DecidableEq, Repr

/-- The configuration parameters a core is built with (R6). It is fixed for the machine: no step changes it. -/
structure Config where
  /-- GLYPH_TABLE: the 80 bytes `initialize` writes at 0x000-0x04F. -/
  glyphTable : Vector Byte 80
  /-- KEY_INDEX_MODE. -/
  keyIndexMode : KeyIndexMode
deriving DecidableEq, Repr

/-- The spec's default glyph bytes (92_eei_decisions.md D1), five to a digit, digits 0 to 7.
PRESUMED, unsafe: the spec marks these bytes as general knowledge (log entry 3). -/
def Config.glyphsLow : List Byte :=
  [0xF0, 0x90, 0x90, 0x90, 0xF0] ++ [0x20, 0x60, 0x20, 0x20, 0x70] ++
  [0xF0, 0x10, 0xF0, 0x80, 0xF0] ++ [0xF0, 0x10, 0xF0, 0x10, 0xF0] ++
  [0x90, 0x90, 0xF0, 0x10, 0x10] ++ [0xF0, 0x80, 0xF0, 0x10, 0xF0] ++
  [0xF0, 0x80, 0xF0, 0x90, 0xF0] ++ [0xF0, 0x10, 0x20, 0x40, 0x40]

/-- The spec's default glyph bytes (D1), digits 8 to F. PRESUMED, unsafe (log entry 3). -/
def Config.glyphsHigh : List Byte :=
  [0xF0, 0x90, 0xF0, 0x90, 0xF0] ++ [0xF0, 0x90, 0xF0, 0x10, 0xF0] ++
  [0xF0, 0x90, 0xF0, 0x90, 0x90] ++ [0xE0, 0x90, 0xE0, 0x90, 0xE0] ++
  [0xF0, 0x80, 0x80, 0x80, 0xF0] ++ [0xE0, 0x90, 0x90, 0x90, 0xE0] ++
  [0xF0, 0x80, 0xF0, 0x80, 0xF0] ++ [0xF0, 0x80, 0xF0, 0x80, 0x80]

/-- The default GLYPH_TABLE of D1. -/
def Config.defaultGlyphs : Vector Byte 80 :=
  ⟨(Config.glyphsLow ++ Config.glyphsHigh).toArray, by decide⟩

/-- The spec's default parameters (R6). The state carries the parameters, so a claim about every state is a claim
about every parameter value (log entry 4). -/
def Config.default : Config :=
  { glyphTable := Config.defaultGlyphs, keyIndexMode := .mask }

/-- START_ADDRESS of the reset state: the conventional 0x200 (R57, R193, D23). DESIGN CHOICE, unsafe (log entry 2);
`initialize` itself takes any start address. -/
def Config.startAddress : Word := 0x200

/-- FREE VALUE. The key snapshot of the `n`-th step call for which no input is queued (R185, D11). No body: nothing
is known of it (log entry 6). -/
opaque Config.freeKeys : Nat → Vector Bool 16

/-- FREE VALUE. The random byte of the `n`-th step call for which no input is queued (R148, D12). No body: nothing
is known of it (log entry 6). -/
opaque Config.freeByte : Nat → Byte

end Sys2Proof
end

