-- ==== Sys2Proof/Machine/State.lean ====
section
/-! DEFINITION. The state of the Interpreter Core: the record of 10_state.md R20 field by field, and after it the
fields of the model's own: the report log (R171), the parameters (R6) and the host's side of the interface
(R183-R185). Plain data. -/

namespace Sys2Proof.Machine

/-- Memory as a list of (address, byte) cells in one canonical form (`Memory.wf`): addresses strictly rising and
below 4096, no cell equal to what its address reads as when it is not listed. -/
abbrev Memory := List Host.Cell

/-- The display buffer, `disp[c][r]`: 64 columns of 32 rows, each cell off (0) or on (1) (R32). -/
abbrev Display := Vector (Vector Bool 32) 64

/-- The kinds of condition report (R171). -/
inductive ReportKind where
  | unknownInstruction
  | stackUnderflow
  | stackOverflow
deriving DecidableEq, Repr

/-- A condition report: its kind, the fetched word, and the address it was fetched from (R171). -/
structure Report where
  kind   : ReportKind
  opcode : Word
  pc     : Word
deriving DecidableEq, Repr

/-- What the host supplies with one `step` call: the key snapshot (R185) and the byte `RandomByte()` draws (R148).
A step runs at most one instruction, so it queries a key and draws a byte at most once. -/
structure Input where
  keys       : Vector Bool 16
  randomByte : Byte
deriving DecidableEq, Repr

/-- The operations the host may perform, and only these (R183). -/
inductive HostOp where
  | init (start : Word)
  | loadProgram (bytes : List Byte) (start : Word)
  | step (input : Input)
  | tickTimers
  | readDisplay
  | isAwaitingKey
  | resumeWithKey (k : Key)
deriving DecidableEq, Repr

/-- What a host operation returns (R183). -/
inductive HostReply where
  | nothing
  | loaded (success : Bool)
  | display (grid : Display)
  | awaiting (yes : Bool)
deriving DecidableEq, Repr

/-- The machine. -/
structure State where
  /-- Memory, 4096 bytes (R50). -/
  mem : Memory
  /-- General registers V0 to VF (R22). -/
  reg : Vector Byte 16
  /-- The address register I (R29). -/
  i : Word
  /-- The program counter (R25). -/
  pc : Word
  /-- The call stack's entries (R30). -/
  stack : Vector Word 16
  /-- The call stack's depth, 0 to 16 (R30). -/
  sp : Fin 17
  /-- The delay timer (R31). -/
  dt : Byte
  /-- The sound timer (R31). -/
  st : Byte
  /-- The display buffer (R32). -/
  disp : Display
  /-- Blocked awaiting a key for register x, or ready (R20, R35). -/
  wait : Option Reg
  /-- The report output, oldest first; nothing reads it and nothing clears it (R171, D20, D24). The host's, not the
  core's, so the model keeps it beside the record of R20. -/
  reports : List Report
  /-- The configuration parameters (R6). No step changes them. -/
  config : Config
  /-- MODEL'S OWN: the input of the `step` call in progress (R21, R185). -/
  input : Input
  /-- MODEL'S OWN: the host's calls still to come, oldest first (R184). When it is empty the host calls `step` with
  a free input. -/
  pending : List HostOp
  /-- MODEL'S OWN: how many free inputs have been taken; it selects the next one. -/
  inputsTaken : Nat
deriving DecidableEq, Repr

/-- FAULT REASONS. None: the core raises no exception and has no trap mechanism; every condition is a report and the
step completes (R170). With no constructor, no meaning can fault. -/
inductive Fault
deriving DecidableEq, Repr

/-- REFUSAL REASONS. -/
inductive Refusal where
  /-- Raised by an arm of `exec` whose instruction has no meaning yet. Safe: the machine stops. No arm raises it. -/
  | notModelled (mnemonic : String)
deriving DecidableEq, Repr

/-- An input with no key pressed and a zero byte. -/
def Input.idle : Input := { keys := Vector.replicate 16 false, randomByte := 0 }

/-- A display with every cell off. -/
def Display.clear : Display := Vector.replicate 64 (Vector.replicate 32 false)

/-- The machine right after reset, `initialize(START_ADDRESS)` (R190, R191, R193). Every value of R20's record is the
one R190 gives; memory lists nothing, since an unlisted address reads as what `initialize` leaves there. The reports,
the parameters and the host's fields are the model's (log entries 2, 3, 4, 6). -/
def State.reset : State :=
  { mem := []
    reg := Vector.replicate 16 0
    i := 0
    pc := Config.startAddress
    stack := Vector.replicate 16 0
    sp := 0
    dt := 0
    st := 0
    disp := Display.clear
    wait := none
    reports := []
    config := Config.default
    input := Input.idle
    pending := []
    inputsTaken := 0 }

end Sys2Proof.Machine
end

