-- ==== Sys2Proof/Machine/Ops.lean ====
section
/-! DEFINITION. The named operations over memory, registers, the display, the call stack and the report output. This
hardware takes no exception and has no return from one (60_exceptions.md R170, R175); what stands in their place is
`State.report`, the one shared operation of every condition. -/

namespace Sys2Proof.Machine

/-! ### Memory (20_memory.md) -/

/-- What an address that is not listed reads as: the byte `initialize` leaves there with the default glyph table
(R57, R190). -/
def Memory.resetByte (a : Nat) : Byte := (Config.glyphsLow ++ Config.glyphsHigh).getD a 0

/-- The byte at an address. -/
def Memory.read : Memory → Nat → Byte
  | [], a => Memory.resetByte a
  | (k, v) :: m, a => if k = a then v else Memory.read m a

/-- Remove every cell of an address. -/
def Memory.erase (m : Memory) (a : Nat) : Memory := m.filter fun cell => cell.1 != a

/-- Put a cell before the first cell of a higher address. -/
def Memory.insert : Memory → Nat → Byte → Memory
  | [], a, b => [(a, b)]
  | (k, v) :: m, a, b => if a < k then (a, b) :: (k, v) :: m else (k, v) :: Memory.insert m a b

/-- Set the byte at an address, keeping the canonical form: a byte equal to the unlisted one is not listed. -/
def Memory.write (m : Memory) (a : Nat) (b : Byte) : Memory :=
  if b = Memory.resetByte a then Memory.erase m a else Memory.insert (Memory.erase m a) a b

/-- Write bytes to consecutive addresses, lowest first. -/
def Memory.writeBytes : Memory → Nat → List Byte → Memory
  | m, _, [] => m
  | m, a, b :: bs => Memory.writeBytes (Memory.write m a b) (a + 1) bs

/-- Is the cell one that a canonical memory may list? -/
def Memory.cellOk (cell : Host.Cell) : Bool :=
  decide (cell.1 < memorySize) && cell.2 != Memory.resetByte cell.1

/-- The canonical form: addresses strictly rising, each below 4096, no cell equal to the unlisted byte. -/
def Memory.wf : Memory → Bool
  | [] => true
  | cell :: m => Memory.cellOk cell && m.all (fun other => decide (cell.1 < other.1)) && Memory.wf m

/-- The memory `initialize` leaves (R190): every byte zero, then the glyph table at 0x000-0x04F. An unlisted address
reads as the default table's byte, so with that table nothing is listed. -/
def Memory.initial (glyphs : Vector Byte 80) : Memory := Memory.writeBytes [] 0 glyphs.toList

/-- `MemRead(addr, 1)`: the byte at addr mod 4096 (R52). -/
def State.memRead (s : State) (addr : Nat) : Byte := Memory.read s.mem (addr % memorySize)

/-- `MemWrite(addr, 1, v)`: set the byte at addr mod 4096 (R52). -/
def State.memWrite (s : State) (addr : Nat) (v : Byte) : State :=
  { s with mem := Memory.write s.mem (addr % memorySize) v }

/-! ### General registers (R22) -/

/-- `reg[x]`. -/
def State.readReg (s : State) (x : Reg) : Byte := s.reg[x]

/-- `reg[x] <- v`. No register is hard-wired (R22). -/
def State.writeReg (s : State) (x : Reg) (v : Byte) : State := { s with reg := s.reg.set x v }

/-! ### Program counter (R25, R26) -/

/-- `pc <- target`. -/
def State.setPc (s : State) (target : Word) : State := { s with pc := target }

/-- The fetch advance, mod 65536 (R72). -/
def State.advancePc (s : State) : State := s.setPc (s.pc + 2)

/-- `skip()`, mod 65536 (R120). -/
def State.skip (s : State) : State := s.setPc (s.pc + 2)

/-- Skip when a condition holds (R120). -/
def State.skipIf (s : State) (cond : Bool) : State := if cond then s.skip else s

/-! ### The other registers -/

/-- `I <- v`. All sixteen bits are stored (R29). -/
def State.setI (s : State) (v : Word) : State := { s with i := v }

/-- `DT <- v`. -/
def State.setDt (s : State) (v : Byte) : State := { s with dt := v }

/-- `ST <- v`. -/
def State.setSt (s : State) (v : Byte) : State := { s with st := v }

/-- `wait <- w`. -/
def State.setWait (s : State) (w : Option Reg) : State := { s with wait := w }

/-! ### Call stack (R30, D16) -/

/-- `stack[SP] <- v; SP <- SP + 1`, for a depth below 16. -/
def State.push (s : State) (v : Word) (h : s.sp.val < 16) : State :=
  { s with stack := s.stack.set s.sp.val v, sp := ⟨s.sp.val + 1, by omega⟩ }

/-- `SP <- SP - 1`, for a depth above 0. The popped entry keeps its value (R110). -/
def State.pop (s : State) (_h : 0 < s.sp.val) : State := { s with sp := ⟨s.sp.val - 1, by omega⟩ }

/-- The entry the depth points past, `stack[SP - 1]`. -/
def State.top (s : State) (h : 0 < s.sp.val) : Word := s.stack[s.sp.val - 1]'(by omega)

/-! ### Display (R32) -/

/-- `disp[c][r]`. -/
def Display.cell (d : Display) (c : Fin 64) (r : Fin 32) : Bool := d[c][r]

/-- `disp[c][r] <- on`. -/
def Display.setCell (d : Display) (c : Fin 64) (r : Fin 32) (on : Bool) : Display := d.set c (d[c].set r on)

/-- Set the whole display buffer. -/
def State.setDisp (s : State) (d : Display) : State := { s with disp := d }

/-! ### Condition reports (R170-R172) -/

/-- The address the instruction in execution was fetched from: the program counter is already two past it, mod 65536
(R25, R72). -/
def State.fetchPc (s : State) : Word := s.pc - 2

/-- `report kind(op, fetch_pc)`: append one report and change nothing else (R171, R172). -/
def State.report (s : State) (kind : ReportKind) (op : Word) : State :=
  { s with reports := s.reports ++ [{ kind := kind, opcode := op, pc := s.fetchPc }] }

/-- The effect of an unknown instruction (R76): the report, and nothing else. -/
def State.reportUnknown (s : State) (op : Word) : State := s.report .unknownInstruction op

/-! ### The step call's input (R185) -/

/-- Take the input of a `step` call. -/
def State.setInput (s : State) (inp : Input) : State := { s with input := inp }

/-- The input of the next `step` call for which the host queued none: free values (log entry 6). -/
def State.freeInput (s : State) : Input :=
  { keys := Config.freeKeys s.inputsTaken, randomByte := Config.freeByte s.inputsTaken }

/-- Count one free input as taken. -/
def State.countInput (s : State) : State := { s with inputsTaken := s.inputsTaken + 1 }

/-- Set the host's calls still to come. -/
def State.setPending (s : State) (ops : List HostOp) : State := { s with pending := ops }

end Sys2Proof.Machine
end

