-- ==== Sys2Proof/Machine/Operands.lean ====
section
/-! DEFINITION. Every operand form: immediates (30_encoding.md R74), register-indirect addresses through I
(20_memory.md R51), key numbers (45_input_timers.md R166), screen coordinates (40_display.md R101) and the
fetched word (R71). -/

namespace Sys2Proof.Machine

/-- `zext_16(nnn)` (R74). -/
def zextAddr (nnn : Addr) : Word := nnn.zeroExtend 16

/-- `zext_16` of a byte. -/
def zextByte (v : Byte) : Word := v.zeroExtend 16

/-- `EA(I, k) = (I + k) mod 4096` (R51, D3). The sum is of unbounded integers. -/
def State.ea (s : State) (k : Nat) : Nat := (s.i.toNat + k) % memorySize

/-- The register a loop counter names; loops run over 0 to 15 only. -/
def regAt (k : Nat) : Reg := Fin.ofNat 16 k

/-- `KeyPressed(k)`: the host's answer in this step's snapshot (R185). -/
def State.keyDown (s : State) (k : Key) : Bool := s.input.keys[k]

/-- `key_pressed(v)`: is the key a register value names pressed (R166)? -/
def State.keyPressed (s : State) (v : Byte) : Bool :=
  match s.config.keyIndexMode with
  | .mask => s.keyDown (Fin.ofNat 16 (v &&& 0x0F).toNat)
  | .invalidNotPressed => if v.toNat ≤ 0x0F then s.keyDown (Fin.ofNat 16 v.toNat) else false

/-- `RandomByte()`: this step's draw (R148). -/
def State.drawByte (s : State) : Byte := s.input.randomByte

/-- A screen column, reduced mod 64 (R101). -/
def column (n : Nat) : Fin 64 := Fin.ofNat 64 n

/-- A screen row, reduced mod 32 (R101). -/
def row (n : Nat) : Fin 32 := Fin.ofNat 32 n

/-- `sprite[7 - col]`: columns run from the most significant bit (R101). -/
def spriteBit (sprite : Byte) (col : Nat) : Bool := sprite.getLsbD (7 - col)

end Sys2Proof.Machine
end

