-- ==== Sys2Proof/Machine/Flags.lean ====
section
/-! DEFINITION. Every value an instruction writes to VF as a flag (10_state.md R27). There is no other flag (R28). -/

namespace Sys2Proof.Machine

/-- A flag as the byte VF holds. -/
def flagByte (b : Bool) : Byte := if b then 1 else 0

/-- 8xy4: the sum left the register's width (R136). -/
def carryFlag (sum : Nat) : Byte := flagByte (decide (sum > 255))

/-- 8xy5 and 8xy7: the minuend is at least the subtrahend, unsigned (R137, R139). -/
def notBorrowFlag (minuend subtrahend : Byte) : Byte := flagByte (decide (minuend.toNat ≥ subtrahend.toNat))

/-- 8xy6: the bit shifted out to the right (R138). -/
def shiftRightFlag (v : Byte) : Byte := v &&& 1

/-- 8xyE: the bit shifted out to the left (R140). -/
def shiftLeftFlag (v : Byte) : Byte := flagByte (decide (v &&& 0x80 ≠ 0))

/-- `reg[0xF] <- flag`. -/
def State.setFlag (s : State) (flag : Byte) : State := s.writeReg vF flag

end Sys2Proof.Machine
end

