-- ==== Sys2Proof/Machine/Alu.lean ====
section
/-! DEFINITION. Register loads and arithmetic-logic instructions: 6xnn, 7xnn, 8xy_ and Cxnn (43_alu.md). Statements
run in the order written, each reading the state the one before left (R10, D7): the flag is written before the
result, so when VF is an operand the result statement of 8xy5, 8xy6, 8xy7 and 8xyE reads the new flag. -/

namespace Sys2Proof.Machine

/-- 6xnn (R130). -/
def execLdImm (x : Reg) (nn : Byte) (s : State) : Host.Outcome State Fault Refusal := .next (s.writeReg x nn)

/-- 7xnn (R131): wrapping, no flag. -/
def execAddImm (x : Reg) (nn : Byte) (s : State) : Host.Outcome State Fault Refusal :=
  .next (s.writeReg x (s.readReg x + nn))

/-- 8xy0 (R132). -/
def execLdReg (x y : Reg) (s : State) : Host.Outcome State Fault Refusal := .next (s.writeReg x (s.readReg y))

/-- 8xy1 (R133): VF is not cleared. -/
def execOrReg (x y : Reg) (s : State) : Host.Outcome State Fault Refusal :=
  .next (s.writeReg x (s.readReg x ||| s.readReg y))

/-- 8xy2 (R134). -/
def execAndReg (x y : Reg) (s : State) : Host.Outcome State Fault Refusal :=
  .next (s.writeReg x (s.readReg x &&& s.readReg y))

/-- 8xy3 (R135). -/
def execXorReg (x y : Reg) (s : State) : Host.Outcome State Fault Refusal :=
  .next (s.writeReg x (s.readReg x ^^^ s.readReg y))

/-- 8xy4 (R136): the sum is read before either write, on unbounded integers. -/
def execAddReg (x y : Reg) (s : State) : Host.Outcome State Fault Refusal :=
  let sum := (s.readReg x).toNat + (s.readReg y).toNat
  .next ((s.setFlag (carryFlag sum)).writeReg x (BitVec.ofNat 8 sum))

/-- 8xy5 (R137). -/
def execSubReg (x y : Reg) (s : State) : Host.Outcome State Fault Refusal :=
  let s1 := s.setFlag (notBorrowFlag (s.readReg x) (s.readReg y))
  .next (s1.writeReg x (s1.readReg x - s1.readReg y))

/-- 8xy6 (R138): y is not read. -/
def execShrReg (x _y : Reg) (s : State) : Host.Outcome State Fault Refusal :=
  let s1 := s.setFlag (shiftRightFlag (s.readReg x))
  .next (s1.writeReg x (s1.readReg x >>> 1))

/-- 8xy7 (R139). -/
def execSubnReg (x y : Reg) (s : State) : Host.Outcome State Fault Refusal :=
  let s1 := s.setFlag (notBorrowFlag (s.readReg y) (s.readReg x))
  .next (s1.writeReg x (s1.readReg y - s1.readReg x))

/-- 8xyE (R140): y is not read. -/
def execShlReg (x _y : Reg) (s : State) : Host.Outcome State Fault Refusal :=
  let s1 := s.setFlag (shiftLeftFlag (s.readReg x))
  .next (s1.writeReg x (s1.readReg x <<< 1))

/-- Cxnn (R148): one draw, masked. -/
def execRnd (x : Reg) (nn : Byte) (s : State) : Host.Outcome State Fault Refusal :=
  .next (s.writeReg x (s.drawByte &&& nn))

end Sys2Proof.Machine
end

