-- ==== Sys2Proof/Machine/Display.lean ====
section
/-! DEFINITION. The display family: 00E0 and Dxyn (40_display.md). -/

namespace Sys2Proof.Machine

/-- 00E0 (R100): every cell off. -/
def execCls (s : State) : Host.Outcome State Fault Refusal := .next (s.setDisp Display.clear)

/-- One set sprite bit (R101): a cell that was on sets VF; the cell is XORed with 1. -/
def State.flipCell (s : State) (c : Fin 64) (r : Fin 32) : State :=
  let hit := s.disp.cell c r
  let s1 := if hit then s.setFlag (flagByte true) else s
  s1.setDisp (s1.disp.setCell c r (!hit))

/-- One sprite bit (R101): a zero bit changes nothing. -/
def State.drawBit (s : State) (ox oy rowNo : Nat) (sprite : Byte) (col : Nat) : State :=
  if spriteBit sprite col then s.flipCell (column (ox + col)) (row (oy + rowNo)) else s

/-- The first `k` columns of one sprite row, in order (R101). -/
def State.drawCols (s : State) (ox oy rowNo : Nat) (sprite : Byte) : Nat → State
  | 0 => s
  | k + 1 => (State.drawCols s ox oy rowNo sprite k).drawBit ox oy rowNo sprite k

/-- One sprite row: its byte is read at EA(I, row), then its eight bits are drawn (R101). -/
def State.drawRow (s : State) (ox oy rowNo : Nat) : State :=
  s.drawCols ox oy rowNo (s.memRead (s.ea rowNo)) 8

/-- The first `k` rows of a sprite, in order (R101). -/
def State.drawRows (s : State) (ox oy : Nat) : Nat → State
  | 0 => s
  | k + 1 => (State.drawRows s ox oy k).drawRow ox oy k

/-- Dxyn (R101): the origin is read before VF is cleared, then the rows are drawn. -/
def execDrw (x y : Reg) (n : Nibble) (s : State) : Host.Outcome State Fault Refusal :=
  let ox := (s.readReg x).toNat % 64
  let oy := (s.readReg y).toNat % 32
  .next ((s.setFlag (flagByte false)).drawRows ox oy n.toNat)

end Sys2Proof.Machine
end

