-- ==== Sys2Proof/Machine/Flow.lean ====
section
/-! DEFINITION. Control transfer: 00EE, 1nnn, 2nnn and Bnnn (41_flow.md). The program counter these read is already
past the instruction (30_encoding.md R72). The opcode a report names is the instruction's own word, which is the
fetched word, since decoding drops no bit. -/

namespace Sys2Proof.Machine

/-- 00EE (R110): pop the return address; on an empty stack only report. -/
def execRet (s : State) : Host.Outcome State Fault Refusal :=
  .next (if h : 0 < s.sp.val then (s.pop h).setPc (s.top h) else s.report .stackUnderflow (encode .ret))

/-- 1nnn (R111). -/
def execJp (nnn : Addr) (s : State) : Host.Outcome State Fault Refusal := .next (s.setPc (zextAddr nnn))

/-- 2nnn (R112): push the advanced program counter and jump; on a full stack only report. -/
def execCall (nnn : Addr) (s : State) : Host.Outcome State Fault Refusal :=
  .next (if h : s.sp.val < 16 then (s.push s.pc h).setPc (zextAddr nnn)
         else s.report .stackOverflow (encode (.call nnn)))

/-- Bnnn (R113): the register added is always V0. -/
def execJpV0 (nnn : Addr) (s : State) : Host.Outcome State Fault Refusal :=
  .next (s.setPc (zextAddr nnn + zextByte (s.readReg 0)))

end Sys2Proof.Machine
end

