-- ==== Sys2Proof/Machine/Index.lean ====
section
/-! DEFINITION. Address register and memory instructions: Annn, Fx1E, Fx29, Fx33, Fx55 and Fx65
(44_index_memory.md). None changes I as a side effect of a memory access (D17). -/

namespace Sys2Proof.Machine

/-- Annn (R150). -/
def execLdI (nnn : Addr) (s : State) : Host.Outcome State Fault Refusal := .next (s.setI (zextAddr nnn))

/-- Fx1E (R151): wraps mod 65536, no flag. -/
def execAddI (x : Reg) (s : State) : Host.Outcome State Fault Refusal :=
  .next (s.setI (s.i + zextByte (s.readReg x)))

/-- Fx29 (R152): the register is not masked. -/
def execLdF (x : Reg) (s : State) : Host.Outcome State Fault Refusal :=
  .next (s.setI (BitVec.ofNat 16 ((s.readReg x).toNat * 5)))

/-- Fx33 (R153): hundreds, tens and units. -/
def execLdB (x : Reg) (s : State) : Host.Outcome State Fault Refusal :=
  let v := (s.readReg x).toNat
  let s1 := s.memWrite (s.ea 0) (BitVec.ofNat 8 (v / 100))
  let s2 := s1.memWrite (s1.ea 1) (BitVec.ofNat 8 (v / 10 % 10))
  .next (s2.memWrite (s2.ea 2) (BitVec.ofNat 8 (v % 10)))

/-- Store the first `k` registers at I, in order (R154). -/
def State.storeFirst (s : State) : Nat → State
  | 0 => s
  | k + 1 =>
    let t := State.storeFirst s k
    t.memWrite (t.ea k) (t.readReg (regAt k))

/-- Load the first `k` registers from I, in order (R155). -/
def State.loadFirst (s : State) : Nat → State
  | 0 => s
  | k + 1 =>
    let t := State.loadFirst s k
    t.writeReg (regAt k) (t.memRead (t.ea k))

/-- Fx55 (R154): registers 0 to x, inclusive. -/
def execStoreRegs (x : Reg) (s : State) : Host.Outcome State Fault Refusal := .next (s.storeFirst (x.val + 1))

/-- Fx65 (R155): registers 0 to x, inclusive. -/
def execLoadRegs (x : Reg) (s : State) : Host.Outcome State Fault Refusal := .next (s.loadFirst (x.val + 1))

end Sys2Proof.Machine
end

