-- ==== Sys2Proof/Machine/Input.lean ====
section
/-! DEFINITION. Key input and timer instructions: Ex9E, ExA1, Fx07, Fx0A, Fx15 and Fx18 (45_input_timers.md). -/

namespace Sys2Proof.Machine

/-- Ex9E (R160). -/
def execSkp (x : Reg) (s : State) : Host.Outcome State Fault Refusal :=
  .next (s.skipIf (s.keyPressed (s.readReg x)))

/-- ExA1 (R161). -/
def execSknp (x : Reg) (s : State) : Host.Outcome State Fault Refusal :=
  .next (s.skipIf (!s.keyPressed (s.readReg x)))

/-- Fx07 (R162). -/
def execLdVxDt (x : Reg) (s : State) : Host.Outcome State Fault Refusal := .next (s.writeReg x s.dt)

/-- Fx0A (R163), the issue: the core waits for a key for register x. `State.resumeWithKey` completes it. -/
def execLdVxK (x : Reg) (s : State) : Host.Outcome State Fault Refusal := .next (s.setWait (some x))

/-- Fx15 (R164). -/
def execLdDtVx (x : Reg) (s : State) : Host.Outcome State Fault Refusal := .next (s.setDt (s.readReg x))

/-- Fx18 (R165). -/
def execLdStVx (x : Reg) (s : State) : Host.Outcome State Fault Refusal := .next (s.setSt (s.readReg x))

end Sys2Proof.Machine
end

