-- ==== Sys2Proof/Machine/Skip.lean ====
section
/-! DEFINITION. Conditional skips: 3xnn, 4xnn, 5xy0 and 9xy0 (42_skip.md). -/

namespace Sys2Proof.Machine

/-- 3xnn (R121). -/
def execSeImm (x : Reg) (nn : Byte) (s : State) : Host.Outcome State Fault Refusal :=
  .next (s.skipIf (s.readReg x == nn))

/-- 4xnn (R122). -/
def execSneImm (x : Reg) (nn : Byte) (s : State) : Host.Outcome State Fault Refusal :=
  .next (s.skipIf (s.readReg x != nn))

/-- 5xy0 (R123). -/
def execSeReg (x y : Reg) (s : State) : Host.Outcome State Fault Refusal :=
  .next (s.skipIf (s.readReg x == s.readReg y))

/-- 9xy0 (R124). -/
def execSneReg (x y : Reg) (s : State) : Host.Outcome State Fault Refusal :=
  .next (s.skipIf (s.readReg x != s.readReg y))

end Sys2Proof.Machine
end

