-- ==== Sys2Proof/Machine/HostOps.lean ====
section
/-! DEFINITION. The host operations that run no instruction (60_exceptions.md R183): initialize, load_program,
tick_timers, read_display, is_awaiting_key and resume_with_key. -/

namespace Sys2Proof.Machine

/-- `initialize(start)` (R190, R191): every field of R20's record. The report output is the host's and is not cleared
(D20); the parameters and the host's calls still to come are not core state. -/
def State.initCore (start : Word) (s : State) : State :=
  { s with
    mem := Memory.initial s.config.glyphTable
    reg := Vector.replicate 16 0
    i := 0
    pc := start
    stack := Vector.replicate 16 0
    sp := 0
    dt := 0
    st := 0
    disp := Display.clear
    wait := none }

/-- Does a program fit (R194)? The bound is computed on unbounded integers (D19). -/
def programFits (bytes : List Byte) (start : Word) : Bool := decide (start.toNat + bytes.length ≤ memorySize)

/-- `load_program(bytes, start)` (R194): all bytes, or none and failure. It changes nothing but memory. -/
def State.loadProgram (bytes : List Byte) (start : Word) (s : State) : State :=
  if programFits bytes start then { s with mem := Memory.writeBytes s.mem start.toNat bytes } else s

/-- Count a timer down, not below 0 (R181). -/
def countDown (t : Byte) : Byte := if t.toNat > 0 then t - 1 else t

/-- `tick_timers()` (R181): both timers, and nothing else. -/
def State.tickTimers (s : State) : State := (s.setDt (countDown s.dt)).setSt (countDown s.st)

/-- `read_display()` (R186): the grid as it stands. -/
def State.readDisplay (s : State) : Display := s.disp

/-- `is_awaiting_key()` (R183). -/
def State.isAwaitingKey (s : State) : Bool := s.wait.isSome

/-- `resume_with_key(k)` (R163, R183): complete an Fx0A wait; with no wait it has no effect. -/
def State.resumeWithKey (k : Key) (s : State) : State :=
  match s.wait with
  | some x => (s.writeReg x (BitVec.ofNat 8 k.val)).setWait none
  | none => s

/-- What a host operation returns, called in state `s` (R183). -/
def hostReply (op : HostOp) (s : State) : HostReply :=
  match op with
  | .init _ => .nothing
  | .loadProgram bytes start => .loaded (programFits bytes start)
  | .step _ => .nothing
  | .tickTimers => .nothing
  | .readDisplay => .display s.readDisplay
  | .isAwaitingKey => .awaiting s.isAwaitingKey
  | .resumeWithKey _ => .nothing

end Sys2Proof.Machine
end

