-- ==== Sys2Proof/Machine/Cycle.lean ====
section
/-! DEFINITION. The instruction cycle (30_encoding.md R70-R72, R76) and the host's calls (60_exceptions.md R183). -/

namespace Sys2Proof.Machine

/-- Fetch: two bytes at the program counter, big-endian; each address is reduced mod 4096 (R71, D4). -/
def State.fetch (s : State) : Word := wordOfBytes (s.memRead s.pc.toNat) (s.memRead (s.pc.toNat + 1))

/-- Run a fetched word: the program counter moves past it, then it is decoded and executed; an unknown word is only
reported (R70, R72, R76). -/
def runWord (op : Word) (s : State) : Host.Outcome State Fault Refusal :=
  match decode op with
  | .ok i => exec i s.advancePc
  | .error _ => .next (s.advancePc.reportUnknown op)

/-- `step(input)` (R70, R163): while the core waits for a key nothing is fetched and nothing changes. -/
def stepCall (inp : Input) (s : State) : Host.Outcome State Fault Refusal :=
  match s.wait with
  | some _ => .next s
  | none => runWord s.fetch (s.setInput inp)

/-- `step` with a free input; one that runs an instruction uses the input up (log entry 6). -/
def stepFree (s : State) : Host.Outcome State Fault Refusal :=
  match s.wait with
  | some _ => .next s
  | none => stepCall s.freeInput s.countInput

/-- One host call (R183). -/
def perform (op : HostOp) (s : State) : Host.Outcome State Fault Refusal :=
  match op with
  | .init start => .next (s.initCore start)
  | .loadProgram bytes start => .next (s.loadProgram bytes start)
  | .step inp => stepCall inp s
  | .tickTimers => .next s.tickTimers
  | .readDisplay => .next s
  | .isAwaitingKey => .next s
  | .resumeWithKey k => .next (s.resumeWithKey k)

/-- The host's next call: the oldest one still to come, or `step` with a free input (R184, log entry 5). -/
def nextCall (s : State) : Host.Outcome State Fault Refusal :=
  match s.pending with
  | [] => stepFree s
  | op :: rest => perform op (s.setPending rest)

/-- Is this call a `step`? -/
def isStepCall : HostOp → Bool
  | .step _ => true
  | .init _ => false
  | .loadProgram _ _ => false
  | .tickTimers => false
  | .readDisplay => false
  | .isAwaitingKey => false
  | .resumeWithKey _ => false

/-- Drop the calls that stand before the next `step` call. -/
def toNextStep : List HostOp → List HostOp
  | [] => []
  | op :: rest => if isStepCall op then op :: rest else toNextStep rest

/-- Store a word's bytes where the next fetch reads them, and let the next call be a `step` of a ready core. -/
def State.placeWord (s : State) (op : Word) : State :=
  let s1 := s.memWrite s.pc.toNat (highByte op)
  let s2 := s1.memWrite (s1.pc.toNat + 1) (lowByte op)
  (s2.setWait none).setPending (toNextStep s2.pending)

end Sys2Proof.Machine
end

