-- ==== Sys2Proof/Machine/Step.lean ====
section
/-! DEFINITION. One step of the machine: one call of the host (60_exceptions.md R183, R184). -/

namespace Sys2Proof.Machine

/-- One step: the host's next call. -/
def step : State → Host.Outcome State Fault Refusal := nextCall

/-- `s` with a table word stored where the next step fetches. -/
def State.withFetchWord (s : State) (nbits w : Nat) : State := s.placeWord (tableWord nbits w)

end Sys2Proof.Machine
end

