-- ==== Sys2Proof/Safety.lean ====
section
/-! DEFINITION. The terms claims are stated in: the invariant, the frames, what each instruction may write and read,
and what a sprite covers. -/

namespace Sys2Proof.Machine

/-! ### The invariant -/

/-- A report's kind agrees with its opcode (R171): the three causes have disjoint decodings. -/
def reportSound (r : Report) : Bool :=
  match r.kind with
  | .unknownInstruction => match decode r.opcode with | .ok _ => false | .error _ => true
  | .stackUnderflow => r.opcode == 0x00EE
  | .stackOverflow => fieldGroup r.opcode == 0x2

/-- The machine's invariant: memory keeps its canonical form, so every listed address exists (R50), and every report
names a word that can cause it (R171). -/
def MachineInv (s : State) : Prop := Memory.wf s.mem = true ∧ ∀ r ∈ s.reports, reportSound r = true

/-! ### Frames: what a next state leaves as it was -/

/-- From `s` to `t` only general registers that `may` allows changed: every other register, the program counter, I,
the stack, the timers, the display, the wait, the reports, the parameters and the host's fields are as before, and
every byte of memory reads as before. -/
structure RegFrame (s t : State) (may : Reg → Prop) : Prop where
  regs  : ∀ r, ¬ may r → t.readReg r = s.readReg r
  rest  : t = { s with reg := t.reg }
  bytes : ∀ a, t.memRead a = s.memRead a

/-- From `s` to `t` only the program counter changed. -/
structure PcFrame (s t : State) : Prop where
  regs  : ∀ r, t.readReg r = s.readReg r
  rest  : t = { s with pc := t.pc }
  bytes : ∀ a, t.memRead a = s.memRead a

/-- From `s` to `t` only the address register changed. -/
structure IFrame (s t : State) : Prop where
  regs  : ∀ r, t.readReg r = s.readReg r
  rest  : t = { s with i := t.i }
  bytes : ∀ a, t.memRead a = s.memRead a

/-- From `s` to `t` only memory changed, and of it only the bytes at addresses that `stored` allows. -/
structure MemFrame (s t : State) (stored : Nat → Prop) : Prop where
  regs  : ∀ r, t.readReg r = s.readReg r
  rest  : t = { s with mem := t.mem }
  bytes : ∀ a, ¬ stored (a % memorySize) → t.memRead a = s.memRead a

/-! ### What an instruction may write (10_state.md R24, R26, R33) -/

/-- The general registers an instruction writes when it executes (R24). Fx0A writes its register when the wait ends,
not when it executes. -/
def writesReg (i : Instr) (r : Reg) : Prop :=
  match i with
  | .ldImm x _ | .addImm x _ | .ldReg x _ | .orReg x _ | .andReg x _ | .xorReg x _ | .rnd x _ | .ldVxDt x => r = x
  | .addReg x _ | .subReg x _ | .shrReg x _ | .subnReg x _ | .shlReg x _ => r = x ∨ r = vF
  | .drw _ _ _ => r = vF
  | .loadRegs x => r.val ≤ x.val
  | .cls | .ret | .jp _ | .call _ | .seImm _ _ | .sneImm _ _ | .seReg _ _ | .sneReg _ _ | .ldI _ | .jpV0 _
  | .skp _ | .sknp _ | .ldVxK _ | .ldDtVx _ | .ldStVx _ | .addI _ | .ldF _ | .ldB _ | .storeRegs _ => False

/-- The general registers an instruction reads before it writes any (R24). -/
def readsReg (i : Instr) (r : Reg) : Prop :=
  match i with
  | .seImm x _ | .sneImm x _ | .addImm x _ | .shrReg x _ | .shlReg x _ | .skp x | .sknp x | .ldDtVx x | .ldStVx x
  | .addI x | .ldF x | .ldB x => r = x
  | .seReg x y | .sneReg x y | .orReg x y | .andReg x y | .xorReg x y | .addReg x y | .subReg x y | .subnReg x y
  | .drw x y _ => r = x ∨ r = y
  | .ldReg _ y => r = y
  | .jpV0 _ => r = 0
  | .storeRegs x => r.val ≤ x.val
  | .cls | .ret | .jp _ | .call _ | .ldImm _ _ | .ldI _ | .rnd _ _ | .ldVxDt _ | .ldVxK _ | .loadRegs _ => False

/-- Is it a control transfer that sets the program counter (R26)? -/
def isFlow : Instr → Prop
  | .ret | .jp _ | .call _ | .jpV0 _ => True
  | _ => False

/-- Is it a conditional skip (R26)? -/
def isSkip : Instr → Prop
  | .seImm _ _ | .sneImm _ _ | .seReg _ _ | .sneReg _ _ | .skp _ | .sknp _ => True
  | _ => False

/-- Does it write I (R29)? -/
def writesI : Instr → Prop
  | .ldI _ | .addI _ | .ldF _ => True
  | _ => False

/-- Does it reach the call stack (R30)? -/
def writesStack : Instr → Prop
  | .call _ | .ret => True
  | _ => False

/-- Does it write the display (R32)? -/
def writesDisplay : Instr → Prop
  | .cls | .drw _ _ _ => True
  | _ => False

/-- Does it write memory (R53)? -/
def writesMemory : Instr → Prop
  | .ldB _ | .storeRegs _ => True
  | _ => False

/-- Does it write DT (R31)? -/
def writesDt : Instr → Prop
  | .ldDtVx _ => True
  | _ => False

/-- Does it write ST (R31)? -/
def writesSt : Instr → Prop
  | .ldStVx _ => True
  | _ => False

/-- Does it start a key wait (R35)? -/
def writesWait : Instr → Prop
  | .ldVxK _ => True
  | _ => False

/-- Does it read the step's input: a key or the random byte (R148, R160, R161)? -/
def readsInput : Instr → Prop
  | .skp _ | .sknp _ | .rnd _ _ => True
  | _ => False

/-! ### What a sprite covers (40_display.md R101) -/

/-- Row `rowNo` of a sprite, drawn over its first `k` columns, sets the bit that falls on cell (c, r). -/
def colsCover (ox oy rowNo : Nat) (sprite : Byte) (k : Nat) (c : Fin 64) (r : Fin 32) : Prop :=
  ∃ col < k, spriteBit sprite col = true ∧ column (ox + col) = c ∧ row (oy + rowNo) = r

/-- The first `k` rows of the sprite at I, drawn from origin (ox, oy), set a bit that falls on cell (c, r). -/
def rowsCover (s : State) (ox oy k : Nat) (c : Fin 64) (r : Fin 32) : Prop :=
  ∃ rowNo < k, colsCover ox oy rowNo (s.memRead (s.ea rowNo)) 8 c r

/-- The cells `Dxyn` covers in state `s`. -/
def spriteCovers (s : State) (x y : Reg) (n : Nibble) (c : Fin 64) (r : Fin 32) : Prop :=
  rowsCover s ((s.readReg x).toNat % 64) ((s.readReg y).toNat % 32) n.toNat c r

end Sys2Proof.Machine
end

