-- ==== Sys2Proof/WellFormed.lean ====
section
/-! DEFINITION. Well-formedness. An `Instr` carries its operand ranges in its types, so every term of it is
well-formed; what can be ill-formed is a WORD. A word is well-formed when it matches a row of spec/opcode_table.json,
by the row's own mask and match. The rows are written here apart from the decoder, which follows R75's
group-and-subcode map, so that the two can be proved to agree. -/

namespace Sys2Proof

/-- One row of spec/opcode_table.json: the bits it fixes and their values. -/
structure OpcodeRow where
  mask  : Word
  value : Word
deriving DecidableEq, Repr

/-- Does the row select this word? -/
def rowMatches (row : OpcodeRow) (op : Word) : Bool := op &&& row.mask == row.value

/-- Rows 00E0 to 7xnn. -/
def opcodeRowsFlow : List OpcodeRow :=
  [⟨0xFFFF, 0x00E0⟩, ⟨0xFFFF, 0x00EE⟩, ⟨0xF000, 0x1000⟩, ⟨0xF000, 0x2000⟩, ⟨0xF000, 0x3000⟩,
   ⟨0xF000, 0x4000⟩, ⟨0xF00F, 0x5000⟩, ⟨0xF000, 0x6000⟩, ⟨0xF000, 0x7000⟩]

/-- Rows 8xy0 to 9xy0. -/
def opcodeRowsAlu : List OpcodeRow :=
  [⟨0xF00F, 0x8000⟩, ⟨0xF00F, 0x8001⟩, ⟨0xF00F, 0x8002⟩, ⟨0xF00F, 0x8003⟩, ⟨0xF00F, 0x8004⟩,
   ⟨0xF00F, 0x8005⟩, ⟨0xF00F, 0x8006⟩, ⟨0xF00F, 0x8007⟩, ⟨0xF00F, 0x800E⟩, ⟨0xF00F, 0x9000⟩]

/-- Rows Annn to ExA1. -/
def opcodeRowsIndex : List OpcodeRow :=
  [⟨0xF000, 0xA000⟩, ⟨0xF000, 0xB000⟩, ⟨0xF000, 0xC000⟩, ⟨0xF000, 0xD000⟩, ⟨0xF0FF, 0xE09E⟩,
   ⟨0xF0FF, 0xE0A1⟩]

/-- Rows Fx07 to Fx65. -/
def opcodeRowsMisc : List OpcodeRow :=
  [⟨0xF0FF, 0xF007⟩, ⟨0xF0FF, 0xF00A⟩, ⟨0xF0FF, 0xF015⟩, ⟨0xF0FF, 0xF018⟩, ⟨0xF0FF, 0xF01E⟩,
   ⟨0xF0FF, 0xF029⟩, ⟨0xF0FF, 0xF033⟩, ⟨0xF0FF, 0xF055⟩, ⟨0xF0FF, 0xF065⟩]

/-- The 34 rows of spec/opcode_table.json, in its order. -/
def opcodeRows : List OpcodeRow :=
  opcodeRowsFlow ++ opcodeRowsAlu ++ opcodeRowsIndex ++ opcodeRowsMisc

/-- A word is well-formed when some row of the opcode table selects it; every other word is an unknown
instruction (R76, R78). -/
def wordWellFormed (op : Word) : Bool := opcodeRows.any fun row => rowMatches row op

end Sys2Proof
end

