-- ==== Sys2Proof/Certificates/Slice0/Obligations.lean ====
section
/-! DEFINITION. The statements for the provers. Each docstring names the rules of the spec it formalises. Where a
rule gives an instruction's encoding, the statement says what the decoder makes of every such word; where it gives a
result, the statement says that `exec` answers a next state, which result it holds, and what it leaves unchanged. -/

open Sys2Proof Sys2Proof.Machine

/-! ### Decoding and encoding (30_encoding.md) -/

/-- Words written out from the opcode map decode to the instructions they stand for (R73, R75). -/
def Obligations.KnownWordsDecode : Prop :=
  decode 0b0000000011100000#16 = .ok .cls ∧
  decode 0b0000000011101110#16 = .ok .ret ∧
  decode 0b0010001100000000#16 = .ok (.call 0x300) ∧
  decode 0b0101001101000000#16 = .ok (.seReg 3 4) ∧
  decode 0b1000111100010101#16 = .ok (.subReg 15 1) ∧
  decode 0b1010010000000000#16 = .ok (.ldI 0x400) ∧
  decode 0b1101000100100101#16 = .ok (.drw 1 2 5) ∧
  decode 0b1110010010100001#16 = .ok (.sknp 4) ∧
  decode 0b1111001001100101#16 = .ok (.loadRegs 2) ∧
  decode 0b0101001101000001#16 = .error .group5

/-- Decoding an encoded instruction gives it back, at every value of every operand (R73, R75, R77). -/
def Obligations.DecodeEncodeRoundTrip : Prop :=
  ∀ i : Instr, decode (encode i) = .ok i

/-- A word that decodes is the encoding of what it decodes to: no bit is dropped and no two words share a meaning
(R75, R78). -/
def Obligations.EncodeDecodeRoundTrip : Prop :=
  ∀ (op : Word) (i : Instr), decode op = .ok i → encode i = op

/-- The group-and-subcode decoder of R75 accepts exactly the words that a row of the opcode table matches by mask and
value (R75, R76). -/
def Obligations.DecoderAgreesWithOpcodeTable : Prop :=
  ∀ op : Word, (∃ i, decode op = .ok i) ↔ wordWellFormed op = true

/-- No word matches two rows of the opcode table (R78). -/
def Obligations.OpcodeRowsDisjoint : Prop :=
  ∀ (op : Word) (a b : Nat) (p q : OpcodeRow), opcodeRows[a]? = some p → opcodeRows[b]? = some q →
    rowMatches p op = true → rowMatches q op = true → a = b

/-- The words that decode to nothing are exactly the reserved ones (R76, R78, R141). -/
def Obligations.ReservedWordsAreUnknown : Prop :=
  ∀ op : Word, (∃ e, decode op = .error e) ↔
    (fieldGroup op = 0x0 ∧ op ≠ 0x00E0 ∧ op ≠ 0x00EE) ∨
    (fieldGroup op = 0x5 ∧ fieldN op ≠ 0x0) ∨
    (fieldGroup op = 0x8 ∧ fieldN op ∈ [0x8, 0x9, 0xA, 0xB, 0xC, 0xD, 0xF]) ∨
    (fieldGroup op = 0x9 ∧ fieldN op ≠ 0x0) ∨
    (fieldGroup op = 0xE ∧ fieldNN op ∉ [0x9E, 0xA1]) ∨
    (fieldGroup op = 0xF ∧ fieldNN op ∉ [0x07, 0x0A, 0x15, 0x18, 0x1E, 0x29, 0x33, 0x55, 0x65])

/-! ### The instruction cycle (30_encoding.md) -/

/-- Fetch reads two bytes at PC and PC + 1, the lower address high; an address is reduced mod 4096, so a fetch at
0xFFF reads its low byte from 0x000 and one above 0xFFF reads at PC mod 4096 (R71; the reduction is the spec's own
choice D4, log entry 8). -/
def Obligations.FetchIsBigEndian : Prop :=
  ∀ s : State,
    s.fetch.toNat = (s.memRead s.pc.toNat).toNat * 256 + (s.memRead (s.pc.toNat + 1)).toNat ∧
    (∀ a, s.memRead a = s.memRead (a % 4096)) ∧
    (s.pc.toNat % 4096 = 0xFFF → s.memRead (s.pc.toNat + 1) = s.memRead 0x000)

/-- When the core is ready and the fetched word decodes to `i`, a `step` call is `exec i` with the program counter two
further on and the call's input taken (R70, R71, R72). Around it the step only removes the call from the host's queue,
or, with an empty queue, takes a free input and counts it: the queue, and that an empty one means a `step` call, are
the model's choice (log entry 5), and so is the second clause's free input with its counter (log entry 6). -/
def Obligations.StepRunsDecodedInstruction : Prop :=
  ∀ (s : State) (i : Instr), s.wait = none → decode s.fetch = .ok i →
    (∀ inp rest, s.pending = .step inp :: rest →
      step s = exec i { s with pending := rest, input := inp, pc := s.pc + 2 }) ∧
    (s.pending = [] →
      step s = exec i { s with inputsTaken := s.inputsTaken + 1, input := s.freeInput, pc := s.pc + 2 })

/-- An unknown word is reported with its opcode and fetch address; the program counter keeps its advance, and nothing
else of the core's state changes (R76; the report's form is the spec's own choice D8, log entry 10). The host's queue,
and that an empty one means a `step` call, are the model's choice (log entry 5), and so is the second clause's free
input with its counter (log entry 6). -/
def Obligations.UnknownWordIsReported : Prop :=
  ∀ (s : State) (e : Reject), s.wait = none → decode s.fetch = .error e →
    (∀ inp rest, s.pending = .step inp :: rest →
      step s = .next { s with pending := rest, input := inp, pc := s.pc + 2,
                              reports := s.reports ++ [⟨.unknownInstruction, s.fetch, s.pc⟩] }) ∧
    (s.pending = [] →
      step s = .next { s with inputsTaken := s.inputsTaken + 1, input := s.freeInput, pc := s.pc + 2,
                              reports := s.reports ++ [⟨.unknownInstruction, s.fetch, s.pc⟩] })

/-- While the core waits for a key a `step` call fetches nothing and changes nothing of its state (R70, R163; the
waiting form of Fx0A is the spec's own choice D9, log entry 11). The host's queue, and that an empty one means a `step`
call, are the model's choice (log entry 5); a waiting core takes no free input (log entry 6). -/
def Obligations.WaitingStepDoesNothing : Prop :=
  ∀ (s : State) (x : Reg), s.wait = some x →
    (∀ inp rest, s.pending = .step inp :: rest → step s = .next { s with pending := rest }) ∧
    (s.pending = [] → step s = .next s)

/-- No step of any state stops: every step completes with a next state (R170). -/
def Obligations.EveryStepCompletes : Prop :=
  ∀ s : State, ∃ t, step s = .next t

/-! ### Control transfer (41_flow.md) -/

/-- 00EE: with a return address held, the depth falls by one and PC is the address it held; with none, a report and
nothing else (R110; that the address popped is stack[k], the entry's width with it, is the spec's own choice D16, log
entry 12, and the report's form is D8, log entry 10). -/
def Obligations.RetReturnsOrReports : Prop :=
  decode 0x00EE = .ok .ret ∧
  (∀ (s : State) (k : Nat) (h : k < 16), s.sp.val = k + 1 →
    ∃ t, exec .ret s = .next t ∧ t.sp.val = k ∧ t.pc = s.stack[k] ∧ t = { s with sp := t.sp, pc := t.pc } ∧
      (∀ r, t.readReg r = s.readReg r) ∧ ∀ a, t.memRead a = s.memRead a) ∧
  (∀ s : State, s.sp.val = 0 →
    exec .ret s = .next { s with reports := s.reports ++ [⟨.stackUnderflow, 0x00EE, s.pc - 2⟩] })

/-- 1nnn: PC is the address, zero-extended, and nothing else changes (R111). -/
def Obligations.JumpSetsPc : Prop :=
  (∀ op, fieldGroup op = 0x1 → decode op = .ok (.jp (fieldNNN op))) ∧
  ∀ (s : State) (nnn : Addr), ∃ t, exec (.jp nnn) s = .next t ∧ t.pc.toNat = nnn.toNat ∧ PcFrame s t

/-- 2nnn: below depth 16, the advanced PC is pushed and PC is the address; at depth 16, a report and nothing else
(R112; the entry's width and slot and the report's form are the spec's own choices D16 and D8, log entries 12 and
10). -/
def Obligations.CallPushesOrReports : Prop :=
  (∀ op, fieldGroup op = 0x2 → decode op = .ok (.call (fieldNNN op))) ∧
  (∀ (s : State) (nnn : Addr) (h : s.sp.val < 16),
    ∃ t, exec (.call nnn) s = .next t ∧ t.sp.val = s.sp.val + 1 ∧ t.stack[s.sp.val] = s.pc ∧
      (∀ k (_ : k < 16), k ≠ s.sp.val → t.stack[k] = s.stack[k]) ∧ t.pc.toNat = nnn.toNat ∧
      t = { s with stack := t.stack, sp := t.sp, pc := t.pc } ∧
      (∀ r, t.readReg r = s.readReg r) ∧ ∀ a, t.memRead a = s.memRead a) ∧
  (∀ (s : State) (nnn : Addr), s.sp.val = 16 →
    exec (.call nnn) s = .next { s with reports := s.reports ++ [⟨.stackOverflow, encode (.call nnn), s.pc - 2⟩] })

/-- Bnnn: PC is the address plus V0, not reduced mod 4096; V0 whatever op[11:8] holds (R113). -/
def Obligations.JumpPlusV0SetsPc : Prop :=
  (∀ op, fieldGroup op = 0xB → decode op = .ok (.jpV0 (fieldNNN op))) ∧
  ∀ (s : State) (nnn : Addr),
    ∃ t, exec (.jpV0 nnn) s = .next t ∧ t.pc.toNat = nnn.toNat + (s.readReg 0).toNat ∧ PcFrame s t

/-- A call and a later return, with the depth and the pushed entry as the call left them, resume after the call at
the depth before it, whatever else changed between (R114; the entry's width and slot are the spec's own choice D16,
log entry 12). -/
def Obligations.CallThenReturnResumes : Prop :=
  ∀ (s : State) (nnn : Addr) (h : s.sp.val < 16),
    ∃ t, exec (.call nnn) s = .next t ∧
      ∀ t' : State, t'.sp = t.sp → t'.stack[s.sp.val] = t.stack[s.sp.val] →
        ∃ u, exec .ret t' = .next u ∧ u.pc = s.pc ∧ u.sp = s.sp

/-! ### Conditional skips (42_skip.md) -/

/-- 3xnn and 4xnn: PC advances by two more, mod 65536, exactly when the register equals, or differs from, the
immediate (R120, R121, R122). -/
def Obligations.SkipOnImmediate : Prop :=
  (∀ op, fieldGroup op = 0x3 → decode op = .ok (.seImm (fieldX op) (fieldNN op))) ∧
  (∀ op, fieldGroup op = 0x4 → decode op = .ok (.sneImm (fieldX op) (fieldNN op))) ∧
  ∀ (s : State) (x : Reg) (nn : Byte),
    (∃ t, exec (.seImm x nn) s = .next t ∧ PcFrame s t ∧
      t.pc.toNat = (s.pc.toNat + if s.readReg x = nn then 2 else 0) % 65536) ∧
    (∃ t, exec (.sneImm x nn) s = .next t ∧ PcFrame s t ∧
      t.pc.toNat = (s.pc.toNat + if s.readReg x = nn then 0 else 2) % 65536)

/-- 5xy0 and 9xy0: PC advances by two more exactly when the registers are equal, or differ; another low nibble is an
unknown word (R120, R123, R124). -/
def Obligations.SkipOnRegisters : Prop :=
  (∀ op, fieldGroup op = 0x5 → fieldN op = 0 → decode op = .ok (.seReg (fieldX op) (fieldY op))) ∧
  (∀ op, fieldGroup op = 0x5 → fieldN op ≠ 0 → decode op = .error .group5) ∧
  (∀ op, fieldGroup op = 0x9 → fieldN op = 0 → decode op = .ok (.sneReg (fieldX op) (fieldY op))) ∧
  (∀ op, fieldGroup op = 0x9 → fieldN op ≠ 0 → decode op = .error .group9) ∧
  ∀ (s : State) (x y : Reg),
    (∃ t, exec (.seReg x y) s = .next t ∧ PcFrame s t ∧
      t.pc.toNat = (s.pc.toNat + if s.readReg x = s.readReg y then 2 else 0) % 65536) ∧
    (∃ t, exec (.sneReg x y) s = .next t ∧ PcFrame s t ∧
      t.pc.toNat = (s.pc.toNat + if s.readReg x = s.readReg y then 0 else 2) % 65536)

/-! ### Register loads and arithmetic-logic instructions (43_alu.md) -/

/-- 6xnn loads the immediate, 7xnn adds it mod 256 and writes no flag; only register x changes (R130, R131). -/
def Obligations.ImmediateLoadAndAdd : Prop :=
  (∀ op, fieldGroup op = 0x6 → decode op = .ok (.ldImm (fieldX op) (fieldNN op))) ∧
  (∀ op, fieldGroup op = 0x7 → decode op = .ok (.addImm (fieldX op) (fieldNN op))) ∧
  ∀ (s : State) (x : Reg) (nn : Byte),
    (∃ t, exec (.ldImm x nn) s = .next t ∧ t.readReg x = nn ∧ RegFrame s t (· = x)) ∧
    (∃ t, exec (.addImm x nn) s = .next t ∧ (t.readReg x).toNat = ((s.readReg x).toNat + nn.toNat) % 256 ∧
      RegFrame s t (· = x))

/-- 8xy0 to 8xy3: copy, OR, AND and XOR, bit by bit; only register x changes, VF is not written unless it is x
(R132, R133, R134, R135). -/
def Obligations.CopyAndLogic : Prop :=
  (∀ op, fieldGroup op = 0x8 → fieldN op = 0x0 → decode op = .ok (.ldReg (fieldX op) (fieldY op))) ∧
  (∀ op, fieldGroup op = 0x8 → fieldN op = 0x1 → decode op = .ok (.orReg (fieldX op) (fieldY op))) ∧
  (∀ op, fieldGroup op = 0x8 → fieldN op = 0x2 → decode op = .ok (.andReg (fieldX op) (fieldY op))) ∧
  (∀ op, fieldGroup op = 0x8 → fieldN op = 0x3 → decode op = .ok (.xorReg (fieldX op) (fieldY op))) ∧
  ∀ (s : State) (x y : Reg),
    (∃ t, exec (.ldReg x y) s = .next t ∧ RegFrame s t (· = x) ∧ t.readReg x = s.readReg y) ∧
    (∃ t, exec (.orReg x y) s = .next t ∧ RegFrame s t (· = x) ∧
      ∀ k, (t.readReg x).getLsbD k = ((s.readReg x).getLsbD k || (s.readReg y).getLsbD k)) ∧
    (∃ t, exec (.andReg x y) s = .next t ∧ RegFrame s t (· = x) ∧
      ∀ k, (t.readReg x).getLsbD k = ((s.readReg x).getLsbD k && (s.readReg y).getLsbD k)) ∧
    (∃ t, exec (.xorReg x y) s = .next t ∧ RegFrame s t (· = x) ∧
      ∀ k, (t.readReg x).getLsbD k = ((s.readReg x).getLsbD k != (s.readReg y).getLsbD k))

/-- 8xy4: register x is the sum mod 256; VF is the carry unless x is VF, when the sum overwrites it (R136). -/
def Obligations.AddWithCarry : Prop :=
  (∀ op, fieldGroup op = 0x8 → fieldN op = 0x4 → decode op = .ok (.addReg (fieldX op) (fieldY op))) ∧
  ∀ (s : State) (x y : Reg),
    ∃ t, exec (.addReg x y) s = .next t ∧
      (t.readReg x).toNat = ((s.readReg x).toNat + (s.readReg y).toNat) % 256 ∧
      (x ≠ vF → (t.readReg vF).toNat = if (s.readReg x).toNat + (s.readReg y).toNat > 255 then 1 else 0) ∧
      RegFrame s t (fun r => r = x ∨ r = vF)

/-- 8xy5: the not-borrow flag is written to VF first, then register x is x minus y mod 256, where an operand that is
VF is the flag just written (R137; the clauses with VF as an operand are the spec's own choice D7, log entry 9). -/
def Obligations.SubtractWithNotBorrow : Prop :=
  (∀ op, fieldGroup op = 0x8 → fieldN op = 0x5 → decode op = .ok (.subReg (fieldX op) (fieldY op))) ∧
  ∀ (s : State) (x y : Reg),
    let flag := if (s.readReg x).toNat ≥ (s.readReg y).toNat then 1 else 0
    let minuend := if x = vF then flag else (s.readReg x).toNat
    let subtrahend := if y = vF then flag else (s.readReg y).toNat
    ∃ t, exec (.subReg x y) s = .next t ∧
      (t.readReg x).toNat = (minuend + 256 - subtrahend) % 256 ∧
      (x ≠ vF → (t.readReg vF).toNat = flag) ∧
      RegFrame s t (fun r => r = x ∨ r = vF)

/-- 8xy6: register x is halved and VF is the bit shifted out; with x = VF the result is 0. Any y gives the same
(R138; the clause with x = VF is the spec's own choice D7, log entry 9). -/
def Obligations.ShiftRightOut : Prop :=
  (∀ op, fieldGroup op = 0x8 → fieldN op = 0x6 → decode op = .ok (.shrReg (fieldX op) (fieldY op))) ∧
  ∀ (s : State) (x y : Reg),
    ∃ t, exec (.shrReg x y) s = .next t ∧
      (x ≠ vF → (t.readReg x).toNat = (s.readReg x).toNat / 2 ∧ (t.readReg vF).toNat = (s.readReg x).toNat % 2) ∧
      (x = vF → (t.readReg vF).toNat = 0) ∧
      (∀ y', exec (.shrReg x y') s = .next t) ∧
      RegFrame s t (fun r => r = x ∨ r = vF)

/-- 8xy7: as 8xy5 with the operands' roles exchanged (R139; the clauses with VF as an operand are the spec's own
choice D7, log entry 9). -/
def Obligations.ReverseSubtractWithNotBorrow : Prop :=
  (∀ op, fieldGroup op = 0x8 → fieldN op = 0x7 → decode op = .ok (.subnReg (fieldX op) (fieldY op))) ∧
  ∀ (s : State) (x y : Reg),
    let flag := if (s.readReg y).toNat ≥ (s.readReg x).toNat then 1 else 0
    let minuend := if y = vF then flag else (s.readReg y).toNat
    let subtrahend := if x = vF then flag else (s.readReg x).toNat
    ∃ t, exec (.subnReg x y) s = .next t ∧
      (t.readReg x).toNat = (minuend + 256 - subtrahend) % 256 ∧
      (x ≠ vF → (t.readReg vF).toNat = flag) ∧
      RegFrame s t (fun r => r = x ∨ r = vF)

/-- 8xyE: register x is doubled mod 256 and VF is the bit shifted out; with x = VF the result is twice that bit. Any
y gives the same (R140; the clause with x = VF is the spec's own choice D7, log entry 9). -/
def Obligations.ShiftLeftOut : Prop :=
  (∀ op, fieldGroup op = 0x8 → fieldN op = 0xE → decode op = .ok (.shlReg (fieldX op) (fieldY op))) ∧
  ∀ (s : State) (x y : Reg),
    ∃ t, exec (.shlReg x y) s = .next t ∧
      (x ≠ vF → (t.readReg x).toNat = (s.readReg x).toNat * 2 % 256 ∧
        (t.readReg vF).toNat = (s.readReg x).toNat / 128) ∧
      (x = vF → (t.readReg vF).toNat = (s.readReg x).toNat / 128 * 2) ∧
      (∀ y', exec (.shlReg x y') s = .next t) ∧
      RegFrame s t (fun r => r = x ∨ r = vF)

/-- Cxnn: register x is the byte the host draws for the step, whatever it is, masked by the immediate, and only
register x changes (R148). -/
def Obligations.RandomByteMasked : Prop :=
  (∀ op, fieldGroup op = 0xC → decode op = .ok (.rnd (fieldX op) (fieldNN op))) ∧
  ∀ (s : State) (x : Reg) (nn : Byte),
    ∃ t, exec (.rnd x nn) s = .next t ∧ RegFrame s t (· = x) ∧
      ∀ k, (t.readReg x).getLsbD k = (s.input.randomByte.getLsbD k && nn.getLsbD k)

/-! ### Address register and memory (44_index_memory.md) -/

/-- Annn loads I, Fx1E adds a register to it mod 65536, Fx29 sets it to five times a register; only I changes, and VF
does not (R150, R151, R152). -/
def Obligations.AddressRegisterWrites : Prop :=
  (∀ op, fieldGroup op = 0xA → decode op = .ok (.ldI (fieldNNN op))) ∧
  (∀ op, fieldGroup op = 0xF → fieldNN op = 0x1E → decode op = .ok (.addI (fieldX op))) ∧
  (∀ op, fieldGroup op = 0xF → fieldNN op = 0x29 → decode op = .ok (.ldF (fieldX op))) ∧
  ∀ (s : State) (x : Reg) (nnn : Addr),
    (∃ t, exec (.ldI nnn) s = .next t ∧ t.i.toNat = nnn.toNat ∧ IFrame s t) ∧
    (∃ t, exec (.addI x) s = .next t ∧ t.i.toNat = (s.i.toNat + (s.readReg x).toNat) % 65536 ∧ IFrame s t) ∧
    (∃ t, exec (.ldF x) s = .next t ∧ t.i.toNat = (s.readReg x).toNat * 5 ∧ IFrame s t)

/-- Fx33: the hundreds, tens and units go to EA(I, 0), EA(I, 1) and EA(I, 2), where EA(I, k) = (I + k) mod 4096;
nothing else changes (R153; the reduction mod 4096 of R51 is the spec's own choice D3, log entry 7). -/
def Obligations.DecimalDigitsStored : Prop :=
  (∀ op, fieldGroup op = 0xF → fieldNN op = 0x33 → decode op = .ok (.ldB (fieldX op))) ∧
  (∀ (s : State) (k : Nat), s.ea k = (s.i.toNat + k) % 4096) ∧
  ∀ (s : State) (x : Reg),
    ∃ t, exec (.ldB x) s = .next t ∧
      (t.memRead (s.ea 0)).toNat = (s.readReg x).toNat / 100 ∧
      (t.memRead (s.ea 1)).toNat = (s.readReg x).toNat / 10 % 10 ∧
      (t.memRead (s.ea 2)).toNat = (s.readReg x).toNat % 10 ∧
      MemFrame s t (fun a => a = s.ea 0 ∨ a = s.ea 1 ∨ a = s.ea 2)

/-- Fx55: registers 0 to x go to EA(I, 0) to EA(I, x); I and everything else are unchanged (R154; that I
is unchanged and the reduction mod 4096 are the spec's own choices D17 and D3, log entries 13 and 7). -/
def Obligations.RegistersStored : Prop :=
  (∀ op, fieldGroup op = 0xF → fieldNN op = 0x55 → decode op = .ok (.storeRegs (fieldX op))) ∧
  ∀ (s : State) (x : Reg),
    ∃ t, exec (.storeRegs x) s = .next t ∧
      (∀ r : Reg, r ≤ x → t.memRead (s.ea r.val) = s.readReg r) ∧
      MemFrame s t (fun a => ∃ r : Reg, r ≤ x ∧ a = s.ea r.val)

/-- Fx65: registers 0 to x come from EA(I, 0) to EA(I, x); I, memory and the other registers are unchanged (R155;
D17 and D3 as for Fx55, log entries 13 and 7). -/
def Obligations.RegistersLoaded : Prop :=
  (∀ op, fieldGroup op = 0xF → fieldNN op = 0x65 → decode op = .ok (.loadRegs (fieldX op))) ∧
  ∀ (s : State) (x : Reg),
    ∃ t, exec (.loadRegs x) s = .next t ∧
      (∀ r : Reg, r ≤ x → t.readReg r = s.memRead (s.ea r.val)) ∧
      RegFrame s t (· ≤ x)

/-- Fx55 then Fx65 with the same x and I, the stored bytes unchanged between, restores registers 0 to x (R156; that I
is unchanged and the reduction mod 4096 are the spec's own choices D17 and D3, log entries 13 and 7). -/
def Obligations.StoreThenLoadRestores : Prop :=
  ∀ (s : State) (x : Reg), ∃ t, exec (.storeRegs x) s = .next t ∧
    ∀ u : State, u.i = t.i → (∀ r : Reg, r ≤ x → u.memRead (t.ea r.val) = t.memRead (t.ea r.val)) →
      ∃ v, exec (.loadRegs x) u = .next v ∧ ∀ r : Reg, r ≤ x → v.readReg r = s.readReg r

/-- A word stored by Fx55 at the program counter is the next word fetched: a store needs nothing before the fetch sees
it (R63, R197). That the store's address and the fetch's are reduced mod 4096, so that they meet where `ea j` is PC
mod 4096 and the word may wrap from 0xFFF to 0x000, are the spec's own choices D3 and D4 (log entries 7 and 8). -/
def Obligations.StoredWordIsFetchedNext : Prop :=
  ∀ (s : State) (x j k : Reg), k.val = j.val + 1 → k ≤ x → s.ea j.val = s.pc.toNat % 4096 →
    ∃ t, exec (.storeRegs x) s = .next t ∧ t.fetch.toNat = (s.readReg j).toNat * 256 + (s.readReg k).toNat

/-! ### Keys and timers (45_input_timers.md) -/

/-- Ex9E skips exactly when the key the register names is pressed, ExA1 exactly when it is not. Under `mask` the key
is the value mod 16; under `invalid_not_pressed` it is the value, and a value above 0xF names no key and counts as not
pressed (R160, R161, R166; the two modes are the spec's parameter D5, log entry 4). -/
def Obligations.SkipOnKey : Prop :=
  (∀ op, fieldGroup op = 0xE → fieldNN op = 0x9E → decode op = .ok (.skp (fieldX op))) ∧
  (∀ op, fieldGroup op = 0xE → fieldNN op = 0xA1 → decode op = .ok (.sknp (fieldX op))) ∧
  ∀ (s : State) (x : Reg) (pressed : Bool),
    (s.config.keyIndexMode = .mask ∧
        (∃ k : Key, k.val = (s.readReg x).toNat % 16 ∧ pressed = s.input.keys[k]) ∨
      s.config.keyIndexMode = .invalidNotPressed ∧
        ((∃ k : Key, k.val = (s.readReg x).toNat ∧ pressed = s.input.keys[k]) ∨
          15 < (s.readReg x).toNat ∧ pressed = false)) →
    (∃ t, exec (.skp x) s = .next t ∧ PcFrame s t ∧
      t.pc.toNat = (s.pc.toNat + if pressed then 2 else 0) % 65536) ∧
    (∃ t, exec (.sknp x) s = .next t ∧ PcFrame s t ∧
      t.pc.toNat = (s.pc.toNat + if pressed then 0 else 2) % 65536)

/-- Fx07 reads DT into register x, Fx15 sets DT and Fx18 sets ST from it; nothing else changes (R162, R164, R165). -/
def Obligations.TimerTransfers : Prop :=
  (∀ op, fieldGroup op = 0xF → fieldNN op = 0x07 → decode op = .ok (.ldVxDt (fieldX op))) ∧
  (∀ op, fieldGroup op = 0xF → fieldNN op = 0x15 → decode op = .ok (.ldDtVx (fieldX op))) ∧
  (∀ op, fieldGroup op = 0xF → fieldNN op = 0x18 → decode op = .ok (.ldStVx (fieldX op))) ∧
  ∀ (s : State) (x : Reg),
    (∃ t, exec (.ldVxDt x) s = .next t ∧ t.readReg x = s.dt ∧ RegFrame s t (· = x)) ∧
    (∃ t, exec (.ldDtVx x) s = .next t ∧ t.dt = s.readReg x ∧ t = { s with dt := t.dt } ∧
      (∀ r, t.readReg r = s.readReg r) ∧ ∀ a, t.memRead a = s.memRead a) ∧
    (∃ t, exec (.ldStVx x) s = .next t ∧ t.st = s.readReg x ∧ t = { s with st := t.st } ∧
      (∀ r, t.readReg r = s.readReg r) ∧ ∀ a, t.memRead a = s.memRead a)

/-- Fx0A: executing it only starts the wait for register x; while the core waits, a `step` call changes nothing of its
state; when the host delivers key k, register x is k, the wait is over, and nothing else has changed (R163; the
two-transition form is the spec's own choice D9, log entry 11, and the host's queue is the model's, log entry 5). -/
def Obligations.KeyWaitIssuesAndCompletes : Prop :=
  (∀ op, fieldGroup op = 0xF → fieldNN op = 0x0A → decode op = .ok (.ldVxK (fieldX op))) ∧
  (∀ (s : State) (x : Reg), exec (.ldVxK x) s = .next { s with wait := some x }) ∧
  ∀ (s : State) (x : Reg) (rest : List HostOp), s.wait = some x →
    (∀ inp, s.pending = .step inp :: rest → step s = .next { s with pending := rest }) ∧
    (∀ k : Key, s.pending = .resumeWithKey k :: rest →
      ∃ t, step s = .next t ∧ (t.readReg x).toNat = k.val ∧ t.wait = none ∧
        RegFrame { s with pending := rest, wait := none } t (· = x))

/-! ### Display (40_display.md) -/

/-- 00E0: every cell is off and nothing else changes (R100). -/
def Obligations.ClearDisplay : Prop :=
  decode 0x00E0 = .ok .cls ∧
  ∀ s : State, ∃ t, exec .cls s = .next t ∧ (∀ c r, t.disp.cell c r = false) ∧ t = { s with disp := t.disp } ∧
    (∀ r, t.readReg r = s.readReg r) ∧ ∀ a, t.memRead a = s.memRead a

/-- Dxyn: exactly the cells the sprite covers, from the origin read before VF is cleared and with wraparound, are
inverted; VF is 1 if a covered cell was on before the instruction and else 0; only the display and VF change
(R101; the reduction of sprite addresses mod 4096 and the order of statements are the spec's own choices D3 and D7,
log entries 7 and 9). -/
def Obligations.DrawSprite : Prop :=
  (∀ op, fieldGroup op = 0xD → decode op = .ok (.drw (fieldX op) (fieldY op) (fieldN op))) ∧
  ∀ (s : State) (x y : Reg) (n : Nibble), ∃ t, exec (.drw x y n) s = .next t ∧
    (∀ c r, spriteCovers s x y n c r → t.disp.cell c r = !s.disp.cell c r) ∧
    (∀ c r, ¬ spriteCovers s x y n c r → t.disp.cell c r = s.disp.cell c r) ∧
    ((∃ c r, spriteCovers s x y n c r ∧ s.disp.cell c r = true) → t.readReg vF = 1) ∧
    ((¬ ∃ c r, spriteCovers s x y n c r ∧ s.disp.cell c r = true) → t.readReg vF = 0) ∧
    (∀ r, r ≠ vF → t.readReg r = s.readReg r) ∧
    t = { s with disp := t.disp, reg := t.reg } ∧ ∀ a, t.memRead a = s.memRead a

/-- Drawing the same sprite twice restores the display, and the second draw sets VF to 1 exactly when a covered cell
was on after the first, for x and y other than VF (R102). -/
def Obligations.DrawTwiceRestores : Prop :=
  ∀ (s : State) (x y : Reg) (n : Nibble), x ≠ vF → y ≠ vF →
    ∃ t u, exec (.drw x y n) s = .next t ∧ exec (.drw x y n) t = .next u ∧ u.disp = s.disp ∧
      (u.readReg vF = 1 ↔ ∃ c r, spriteCovers s x y n c r ∧ t.disp.cell c r = true)

/-! ### The host's operations (60_exceptions.md, 70_reset_and_hazards.md)

That a host's call is the oldest entry of `State.pending`, which the step removes, is the model's choice (log entry 5);
what the call does to the core is the rule's. -/

/-- `tick_timers`: each timer above 0 falls by 1, none below 0, and nothing else changes; also during a wait (R181).
-/
def Obligations.TickCountsDown : Prop :=
  ∀ (s : State) (rest : List HostOp), s.pending = .tickTimers :: rest →
    ∃ t, step s = .next t ∧ t.dt.toNat = s.dt.toNat - 1 ∧ t.st.toNat = s.st.toNat - 1 ∧
      t = { s with pending := rest, dt := t.dt, st := t.st } ∧ ∀ a, t.memRead a = s.memRead a

/-- `initialize(start)`: every register, I, the stack, the timers and the display are zero, the wait is over, PC is
the start, memory holds the parameter's glyph table at 0x000-0x04F and zero above; the report output is kept (R190,
R191; that ST and I are zero and that the reports are kept are the spec's own choices D6 and D20, log entries 14 and
10). -/
def Obligations.InitializeResetsState : Prop :=
  ∀ (s : State) (start : Word) (rest : List HostOp), s.pending = .init start :: rest →
    ∃ t, step s = .next t ∧ (∀ r, t.readReg r = 0) ∧ t.i = 0 ∧ t.pc = start ∧ t.sp = 0 ∧
      (∀ k (_ : k < 16), t.stack[k] = 0) ∧ t.dt = 0 ∧ t.st = 0 ∧ (∀ c r, t.disp.cell c r = false) ∧ t.wait = none ∧
      (∀ a (h : a < 80), t.memRead a = s.config.glyphTable[a]) ∧
      (∀ a, 80 ≤ a → a < 4096 → t.memRead a = 0) ∧
      t.reports = s.reports ∧ t.config = s.config ∧ t.pending = rest

/-- `load_program(bytes, start)`: when start plus the length is at most 4096, on unbounded integers, the bytes stand
in memory from start and every other byte and all other state is as before; otherwise failure, and nothing changes
(R194; the unbounded bound is the spec's own choice D19, log entry 15). -/
def Obligations.LoadProgramCopiesOrFails : Prop :=
  ∀ (s : State) (bytes : List Byte) (start : Word) (rest : List HostOp),
    s.pending = .loadProgram bytes start :: rest →
    (start.toNat + bytes.length ≤ 4096 →
      hostReply (.loadProgram bytes start) s = .loaded true ∧
      ∃ t, step s = .next t ∧ (∀ j (h : j < bytes.length), t.memRead (start.toNat + j) = bytes[j]) ∧
        (∀ a, a < 4096 → (a < start.toNat ∨ start.toNat + bytes.length ≤ a) → t.memRead a = s.memRead a) ∧
        t = { s with pending := rest, mem := t.mem }) ∧
    (4096 < start.toNat + bytes.length →
      hostReply (.loadProgram bytes start) s = .loaded false ∧ step s = .next { s with pending := rest })

/-- `read_display` and `is_awaiting_key` answer the grid and the wait status and change nothing; `resume_with_key`
while the core is ready has no effect (R183, R186; the last two operations are the spec's own choice D9, log entry
11). -/
def Obligations.HostQueriesChangeNothing : Prop :=
  ∀ (s : State) (op : HostOp) (rest : List HostOp), s.pending = op :: rest →
    (op = .readDisplay → hostReply op s = .display s.disp ∧ step s = .next { s with pending := rest }) ∧
    (op = .isAwaitingKey →
      hostReply op s = .awaiting (decide (s.wait ≠ none)) ∧ step s = .next { s with pending := rest }) ∧
    (∀ k, op = .resumeWithKey k → s.wait = none → step s = .next { s with pending := rest })

/-! ### Invariants and rules of the whole machine -/

/-- What reset leaves is what R190 gives for `initialize`. The start address 0x200 and the default glyph table are the
model's choice (log entries 2 and 3). -/
def Obligations.ResetIsInitialize : Prop :=
  ∀ s : State, s.config = Config.default →
    s.initCore Config.startAddress =
      { State.reset with reports := s.reports, input := s.input, pending := s.pending, inputsTaken := s.inputsTaken }

/-- The invariant holds at reset: the base case of `StepKeepsInvariant`. The canonical form of memory is the model's
choice (log entry 1), and so is the empty report list at reset; a report's form is the spec's own choice D8 (log entry
10 for both). -/
def Obligations.ResetHasInvariant : Prop := MachineInv State.reset

/-- Every step keeps the invariant: memory stays canonical, so no address outside 0x000-0xFFF is ever listed, and every
report names a word that can cause it. The canonical form is the model's choice (log entry 1), which R50 does not
state: R50 gives the address range only. The causes are R171's; the report's form is the spec's own choice D8, and
that State keeps the reports is D24 (log entry 10). -/
def Obligations.StepKeepsInvariant : Prop :=
  ∀ s t : State, MachineInv s → step s = .next t → MachineInv t

/-- Canonical memories that read alike at every address are equal. This is about the model's own list form of memory
(log entry 1, the model's choice), and formalises no rule of the spec: it says that the list form adds nothing to the
4096 bytes of R50 that the form represents. -/
def Obligations.CanonicalMemoryExtensional : Prop :=
  ∀ m m' : Memory, Memory.wf m = true → Memory.wf m' = true → (∀ a, Memory.read m a = Memory.read m' a) → m = m'

/-- A step appends at most one report, never removes one, and the report names the fetched word and the address it
was fetched from (R171, R173; the report's form is the spec's own choice D8, log entry 10). -/
def Obligations.AtMostOneReport : Prop :=
  ∀ s t : State, step s = .next t →
    t.reports = s.reports ∨ ∃ kind, t.reports = s.reports ++ [⟨kind, s.fetch, s.pc⟩]

/-- A step that reports changes nothing of the core's state but PC, which advances by 2: no handler is entered and
nothing is saved (R172, R175). The report output kept in State is D8 and D24 (log entry 10); the host's fields that the
call also changes are the model's choice (log entries 5 and 6). -/
def Obligations.ReportIsPrecise : Prop :=
  ∀ s t : State, step s = .next t → t.reports ≠ s.reports →
    s.wait = none ∧
    t = { s with pc := s.pc + 2, reports := t.reports, input := t.input, pending := t.pending,
                 inputsTaken := t.inputsTaken }

/-- No step changes the configuration parameters (R6). -/
def Obligations.ConfigurationIsFixed : Prop :=
  ∀ s t : State, step s = .next t → t.config = s.config

/-- Beyond the fetch advance PC changes only by a skip, which adds 2, or by 00EE, 1nnn, 2nnn and Bnnn (R26). -/
def Obligations.OnlyFlowAndSkipsMovePc : Prop :=
  ∀ (i : Instr) (s t : State), exec i s = .next t → t.pc ≠ s.pc →
    isFlow i ∨ (isSkip i ∧ t.pc = s.pc + 2)

/-- An instruction writes only the general registers R24 lists for it; so VF changes only as R27 lists. -/
def Obligations.RegisterWritersAsListed : Prop :=
  ∀ (i : Instr) (s t : State) (r : Reg), exec i s = .next t → ¬ writesReg i r → t.readReg r = s.readReg r

/-- Each other piece of state is written only by the instructions listed for it (R29, R30, R31, R32, R35, R53), and a
report comes only from 00EE and 2nnn (R171: a third kind comes from words that are no instruction). That Fx55 and Fx65
keep I is the spec's own choice D17 (log entry 13), and the report output kept in State is D8 and D24 (log entry 10).
The last conjunct is about the model's own fields: the parameters (log entry 4), the host's queue (log entry 5), and the
input with its counter (log entry 6). -/
def Obligations.StateWritersAsListed : Prop :=
  ∀ (i : Instr) (s t : State), exec i s = .next t →
    (¬ writesI i → t.i = s.i) ∧
    (¬ writesStack i → t.sp = s.sp ∧ t.stack = s.stack ∧ t.reports = s.reports) ∧
    (¬ writesDisplay i → t.disp = s.disp) ∧
    (¬ writesMemory i → ∀ a, t.memRead a = s.memRead a) ∧
    (¬ writesDt i → t.dt = s.dt) ∧
    (¬ writesSt i → t.st = s.st) ∧
    (¬ writesWait i → t.wait = s.wait) ∧
    t.config = s.config ∧ t.input = s.input ∧ t.pending = s.pending ∧ t.inputsTaken = s.inputsTaken

/-- An instruction's effect depends on no general register but those R24 lists as read: changing another register
before it changes nothing after it, except that register where the instruction does not write it (R24). -/
def Obligations.RegisterReadersAsListed : Prop :=
  ∀ (i : Instr) (s t : State) (r : Reg) (v : Byte), exec i s = .next t → ¬ readsReg i r →
    ∃ u, exec i (s.writeReg r v) = .next u ∧ u = { t with reg := u.reg } ∧
      (∀ q, q ≠ r → u.readReg q = t.readReg q) ∧
      (writesReg i r → u.readReg r = t.readReg r) ∧
      (¬ writesReg i r → u.readReg r = v)

/-- Only Ex9E, ExA1 and Cxnn depend on the input the host supplies with a step (R21, R148, R160, R161; that State holds
the input of the call in progress is the model's choice, log entry 6). -/
def Obligations.OnlyInputReadersDependOnInput : Prop :=
  ∀ (i : Instr) (s t : State) (inp : Input), ¬ readsInput i → exec i s = .next t →
    exec i (s.setInput inp) = .next (t.setInput inp)

/-- While the core waits for a key, no step but a delivered key or `initialize` ends the wait, and of the core's state
only the timers and memory can change: the timers only by a tick, memory only by a program load (R189, R195). The
pending form of Fx0A, which lets a step pass and ends by a delivered key, is the spec's own choice D9 (log entry 11);
the host's queue is the model's choice (log entry 5). -/
def Obligations.WaitEndsOnlyByHost : Prop :=
  ∀ (s t : State) (x : Reg), s.wait = some x → step s = .next t →
    (∀ k rest, s.pending ≠ .resumeWithKey k :: rest) → (∀ start rest, s.pending ≠ .init start :: rest) →
    t = { s with dt := t.dt, st := t.st, mem := t.mem, pending := t.pending } ∧
    ((∀ rest, s.pending ≠ .tickTimers :: rest) → t.dt = s.dt ∧ t.st = s.st) ∧
    ((∀ bytes start rest, s.pending ≠ .loadProgram bytes start :: rest) → t.mem = s.mem)
end

