-- ==== Sys2Proof/Laws/State.lean ====
section
/-! SUPPORT. One lemma per field per update of the state, each true by rfl; then what the shared reads see of each
update, and the updates that are another one by definition. -/

namespace Sys2Proof.Machine

/-! ### Updates that are another one by definition -/

@[simp] theorem advancePc_eq (s : State) : s.advancePc = s.setPc (s.pc + 2) := rfl
@[simp] theorem skip_eq (s : State) : s.skip = s.setPc (s.pc + 2) := rfl
@[simp] theorem setFlag_eq (s : State) (b : Byte) : s.setFlag b = s.writeReg vF b := rfl
@[simp] theorem reportUnknown_eq (s : State) (op : Word) :
    s.reportUnknown op = s.report .unknownInstruction op := rfl
@[simp] theorem tickTimers_eq (s : State) :
    s.tickTimers = (s.setDt (countDown s.dt)).setSt (countDown s.st) := rfl

/-! ### `State.memWrite` -/

@[simp] theorem memWrite_mem (s : State) (a : Nat) (v : Byte) : (s.memWrite a v).mem = Memory.write s.mem (a % memorySize) v := rfl
@[simp] theorem memWrite_reg (s : State) (a : Nat) (v : Byte) : (s.memWrite a v).reg = s.reg := rfl
@[simp] theorem memWrite_i (s : State) (a : Nat) (v : Byte) : (s.memWrite a v).i = s.i := rfl
@[simp] theorem memWrite_pc (s : State) (a : Nat) (v : Byte) : (s.memWrite a v).pc = s.pc := rfl
@[simp] theorem memWrite_stack (s : State) (a : Nat) (v : Byte) : (s.memWrite a v).stack = s.stack := rfl
@[simp] theorem memWrite_sp (s : State) (a : Nat) (v : Byte) : (s.memWrite a v).sp = s.sp := rfl
@[simp] theorem memWrite_dt (s : State) (a : Nat) (v : Byte) : (s.memWrite a v).dt = s.dt := rfl
@[simp] theorem memWrite_st (s : State) (a : Nat) (v : Byte) : (s.memWrite a v).st = s.st := rfl
@[simp] theorem memWrite_disp (s : State) (a : Nat) (v : Byte) : (s.memWrite a v).disp = s.disp := rfl
@[simp] theorem memWrite_wait (s : State) (a : Nat) (v : Byte) : (s.memWrite a v).wait = s.wait := rfl
@[simp] theorem memWrite_reports (s : State) (a : Nat) (v : Byte) : (s.memWrite a v).reports = s.reports := rfl
@[simp] theorem memWrite_config (s : State) (a : Nat) (v : Byte) : (s.memWrite a v).config = s.config := rfl
@[simp] theorem memWrite_input (s : State) (a : Nat) (v : Byte) : (s.memWrite a v).input = s.input := rfl
@[simp] theorem memWrite_pending (s : State) (a : Nat) (v : Byte) : (s.memWrite a v).pending = s.pending := rfl
@[simp] theorem memWrite_inputsTaken (s : State) (a : Nat) (v : Byte) : (s.memWrite a v).inputsTaken = s.inputsTaken := rfl

/-! ### `State.writeReg` -/

@[simp] theorem writeReg_mem (s : State) (x : Reg) (v : Byte) : (s.writeReg x v).mem = s.mem := rfl
@[simp] theorem writeReg_reg (s : State) (x : Reg) (v : Byte) : (s.writeReg x v).reg = s.reg.set x v := rfl
@[simp] theorem writeReg_i (s : State) (x : Reg) (v : Byte) : (s.writeReg x v).i = s.i := rfl
@[simp] theorem writeReg_pc (s : State) (x : Reg) (v : Byte) : (s.writeReg x v).pc = s.pc := rfl
@[simp] theorem writeReg_stack (s : State) (x : Reg) (v : Byte) : (s.writeReg x v).stack = s.stack := rfl
@[simp] theorem writeReg_sp (s : State) (x : Reg) (v : Byte) : (s.writeReg x v).sp = s.sp := rfl
@[simp] theorem writeReg_dt (s : State) (x : Reg) (v : Byte) : (s.writeReg x v).dt = s.dt := rfl
@[simp] theorem writeReg_st (s : State) (x : Reg) (v : Byte) : (s.writeReg x v).st = s.st := rfl
@[simp] theorem writeReg_disp (s : State) (x : Reg) (v : Byte) : (s.writeReg x v).disp = s.disp := rfl
@[simp] theorem writeReg_wait (s : State) (x : Reg) (v : Byte) : (s.writeReg x v).wait = s.wait := rfl
@[simp] theorem writeReg_reports (s : State) (x : Reg) (v : Byte) : (s.writeReg x v).reports = s.reports := rfl
@[simp] theorem writeReg_config (s : State) (x : Reg) (v : Byte) : (s.writeReg x v).config = s.config := rfl
@[simp] theorem writeReg_input (s : State) (x : Reg) (v : Byte) : (s.writeReg x v).input = s.input := rfl
@[simp] theorem writeReg_pending (s : State) (x : Reg) (v : Byte) : (s.writeReg x v).pending = s.pending := rfl
@[simp] theorem writeReg_inputsTaken (s : State) (x : Reg) (v : Byte) : (s.writeReg x v).inputsTaken = s.inputsTaken := rfl

/-! ### `State.setPc` -/

@[simp] theorem setPc_mem (s : State) (v : Word) : (s.setPc v).mem = s.mem := rfl
@[simp] theorem setPc_reg (s : State) (v : Word) : (s.setPc v).reg = s.reg := rfl
@[simp] theorem setPc_i (s : State) (v : Word) : (s.setPc v).i = s.i := rfl
@[simp] theorem setPc_pc (s : State) (v : Word) : (s.setPc v).pc = v := rfl
@[simp] theorem setPc_stack (s : State) (v : Word) : (s.setPc v).stack = s.stack := rfl
@[simp] theorem setPc_sp (s : State) (v : Word) : (s.setPc v).sp = s.sp := rfl
@[simp] theorem setPc_dt (s : State) (v : Word) : (s.setPc v).dt = s.dt := rfl
@[simp] theorem setPc_st (s : State) (v : Word) : (s.setPc v).st = s.st := rfl
@[simp] theorem setPc_disp (s : State) (v : Word) : (s.setPc v).disp = s.disp := rfl
@[simp] theorem setPc_wait (s : State) (v : Word) : (s.setPc v).wait = s.wait := rfl
@[simp] theorem setPc_reports (s : State) (v : Word) : (s.setPc v).reports = s.reports := rfl
@[simp] theorem setPc_config (s : State) (v : Word) : (s.setPc v).config = s.config := rfl
@[simp] theorem setPc_input (s : State) (v : Word) : (s.setPc v).input = s.input := rfl
@[simp] theorem setPc_pending (s : State) (v : Word) : (s.setPc v).pending = s.pending := rfl
@[simp] theorem setPc_inputsTaken (s : State) (v : Word) : (s.setPc v).inputsTaken = s.inputsTaken := rfl

/-! ### `State.setI` -/

@[simp] theorem setI_mem (s : State) (v : Word) : (s.setI v).mem = s.mem := rfl
@[simp] theorem setI_reg (s : State) (v : Word) : (s.setI v).reg = s.reg := rfl
@[simp] theorem setI_i (s : State) (v : Word) : (s.setI v).i = v := rfl
@[simp] theorem setI_pc (s : State) (v : Word) : (s.setI v).pc = s.pc := rfl
@[simp] theorem setI_stack (s : State) (v : Word) : (s.setI v).stack = s.stack := rfl
@[simp] theorem setI_sp (s : State) (v : Word) : (s.setI v).sp = s.sp := rfl
@[simp] theorem setI_dt (s : State) (v : Word) : (s.setI v).dt = s.dt := rfl
@[simp] theorem setI_st (s : State) (v : Word) : (s.setI v).st = s.st := rfl
@[simp] theorem setI_disp (s : State) (v : Word) : (s.setI v).disp = s.disp := rfl
@[simp] theorem setI_wait (s : State) (v : Word) : (s.setI v).wait = s.wait := rfl
@[simp] theorem setI_reports (s : State) (v : Word) : (s.setI v).reports = s.reports := rfl
@[simp] theorem setI_config (s : State) (v : Word) : (s.setI v).config = s.config := rfl
@[simp] theorem setI_input (s : State) (v : Word) : (s.setI v).input = s.input := rfl
@[simp] theorem setI_pending (s : State) (v : Word) : (s.setI v).pending = s.pending := rfl
@[simp] theorem setI_inputsTaken (s : State) (v : Word) : (s.setI v).inputsTaken = s.inputsTaken := rfl

/-! ### `State.setDt` -/

@[simp] theorem setDt_mem (s : State) (v : Byte) : (s.setDt v).mem = s.mem := rfl
@[simp] theorem setDt_reg (s : State) (v : Byte) : (s.setDt v).reg = s.reg := rfl
@[simp] theorem setDt_i (s : State) (v : Byte) : (s.setDt v).i = s.i := rfl
@[simp] theorem setDt_pc (s : State) (v : Byte) : (s.setDt v).pc = s.pc := rfl
@[simp] theorem setDt_stack (s : State) (v : Byte) : (s.setDt v).stack = s.stack := rfl
@[simp] theorem setDt_sp (s : State) (v : Byte) : (s.setDt v).sp = s.sp := rfl
@[simp] theorem setDt_dt (s : State) (v : Byte) : (s.setDt v).dt = v := rfl
@[simp] theorem setDt_st (s : State) (v : Byte) : (s.setDt v).st = s.st := rfl
@[simp] theorem setDt_disp (s : State) (v : Byte) : (s.setDt v).disp = s.disp := rfl
@[simp] theorem setDt_wait (s : State) (v : Byte) : (s.setDt v).wait = s.wait := rfl
@[simp] theorem setDt_reports (s : State) (v : Byte) : (s.setDt v).reports = s.reports := rfl
@[simp] theorem setDt_config (s : State) (v : Byte) : (s.setDt v).config = s.config := rfl
@[simp] theorem setDt_input (s : State) (v : Byte) : (s.setDt v).input = s.input := rfl
@[simp] theorem setDt_pending (s : State) (v : Byte) : (s.setDt v).pending = s.pending := rfl
@[simp] theorem setDt_inputsTaken (s : State) (v : Byte) : (s.setDt v).inputsTaken = s.inputsTaken := rfl

/-! ### `State.setSt` -/

@[simp] theorem setSt_mem (s : State) (v : Byte) : (s.setSt v).mem = s.mem := rfl
@[simp] theorem setSt_reg (s : State) (v : Byte) : (s.setSt v).reg = s.reg := rfl
@[simp] theorem setSt_i (s : State) (v : Byte) : (s.setSt v).i = s.i := rfl
@[simp] theorem setSt_pc (s : State) (v : Byte) : (s.setSt v).pc = s.pc := rfl
@[simp] theorem setSt_stack (s : State) (v : Byte) : (s.setSt v).stack = s.stack := rfl
@[simp] theorem setSt_sp (s : State) (v : Byte) : (s.setSt v).sp = s.sp := rfl
@[simp] theorem setSt_dt (s : State) (v : Byte) : (s.setSt v).dt = s.dt := rfl
@[simp] theorem setSt_st (s : State) (v : Byte) : (s.setSt v).st = v := rfl
@[simp] theorem setSt_disp (s : State) (v : Byte) : (s.setSt v).disp = s.disp := rfl
@[simp] theorem setSt_wait (s : State) (v : Byte) : (s.setSt v).wait = s.wait := rfl
@[simp] theorem setSt_reports (s : State) (v : Byte) : (s.setSt v).reports = s.reports := rfl
@[simp] theorem setSt_config (s : State) (v : Byte) : (s.setSt v).config = s.config := rfl
@[simp] theorem setSt_input (s : State) (v : Byte) : (s.setSt v).input = s.input := rfl
@[simp] theorem setSt_pending (s : State) (v : Byte) : (s.setSt v).pending = s.pending := rfl
@[simp] theorem setSt_inputsTaken (s : State) (v : Byte) : (s.setSt v).inputsTaken = s.inputsTaken := rfl

/-! ### `State.setWait` -/

@[simp] theorem setWait_mem (s : State) (w : Option Reg) : (s.setWait w).mem = s.mem := rfl
@[simp] theorem setWait_reg (s : State) (w : Option Reg) : (s.setWait w).reg = s.reg := rfl
@[simp] theorem setWait_i (s : State) (w : Option Reg) : (s.setWait w).i = s.i := rfl
@[simp] theorem setWait_pc (s : State) (w : Option Reg) : (s.setWait w).pc = s.pc := rfl
@[simp] theorem setWait_stack (s : State) (w : Option Reg) : (s.setWait w).stack = s.stack := rfl
@[simp] theorem setWait_sp (s : State) (w : Option Reg) : (s.setWait w).sp = s.sp := rfl
@[simp] theorem setWait_dt (s : State) (w : Option Reg) : (s.setWait w).dt = s.dt := rfl
@[simp] theorem setWait_st (s : State) (w : Option Reg) : (s.setWait w).st = s.st := rfl
@[simp] theorem setWait_disp (s : State) (w : Option Reg) : (s.setWait w).disp = s.disp := rfl
@[simp] theorem setWait_wait (s : State) (w : Option Reg) : (s.setWait w).wait = w := rfl
@[simp] theorem setWait_reports (s : State) (w : Option Reg) : (s.setWait w).reports = s.reports := rfl
@[simp] theorem setWait_config (s : State) (w : Option Reg) : (s.setWait w).config = s.config := rfl
@[simp] theorem setWait_input (s : State) (w : Option Reg) : (s.setWait w).input = s.input := rfl
@[simp] theorem setWait_pending (s : State) (w : Option Reg) : (s.setWait w).pending = s.pending := rfl
@[simp] theorem setWait_inputsTaken (s : State) (w : Option Reg) : (s.setWait w).inputsTaken = s.inputsTaken := rfl

/-! ### `State.push` -/

@[simp] theorem push_mem (s : State) (v : Word) (h : s.sp.val < 16) : (s.push v h).mem = s.mem := rfl
@[simp] theorem push_reg (s : State) (v : Word) (h : s.sp.val < 16) : (s.push v h).reg = s.reg := rfl
@[simp] theorem push_i (s : State) (v : Word) (h : s.sp.val < 16) : (s.push v h).i = s.i := rfl
@[simp] theorem push_pc (s : State) (v : Word) (h : s.sp.val < 16) : (s.push v h).pc = s.pc := rfl
@[simp] theorem push_stack (s : State) (v : Word) (h : s.sp.val < 16) : (s.push v h).stack = s.stack.set s.sp.val v := rfl
@[simp] theorem push_sp (s : State) (v : Word) (h : s.sp.val < 16) : (s.push v h).sp = ⟨s.sp.val + 1, by omega⟩ := rfl
@[simp] theorem push_dt (s : State) (v : Word) (h : s.sp.val < 16) : (s.push v h).dt = s.dt := rfl
@[simp] theorem push_st (s : State) (v : Word) (h : s.sp.val < 16) : (s.push v h).st = s.st := rfl
@[simp] theorem push_disp (s : State) (v : Word) (h : s.sp.val < 16) : (s.push v h).disp = s.disp := rfl
@[simp] theorem push_wait (s : State) (v : Word) (h : s.sp.val < 16) : (s.push v h).wait = s.wait := rfl
@[simp] theorem push_reports (s : State) (v : Word) (h : s.sp.val < 16) : (s.push v h).reports = s.reports := rfl
@[simp] theorem push_config (s : State) (v : Word) (h : s.sp.val < 16) : (s.push v h).config = s.config := rfl
@[simp] theorem push_input (s : State) (v : Word) (h : s.sp.val < 16) : (s.push v h).input = s.input := rfl
@[simp] theorem push_pending (s : State) (v : Word) (h : s.sp.val < 16) : (s.push v h).pending = s.pending := rfl
@[simp] theorem push_inputsTaken (s : State) (v : Word) (h : s.sp.val < 16) : (s.push v h).inputsTaken = s.inputsTaken := rfl

/-! ### `State.pop` -/

@[simp] theorem pop_mem (s : State) (h : 0 < s.sp.val) : (s.pop h).mem = s.mem := rfl
@[simp] theorem pop_reg (s : State) (h : 0 < s.sp.val) : (s.pop h).reg = s.reg := rfl
@[simp] theorem pop_i (s : State) (h : 0 < s.sp.val) : (s.pop h).i = s.i := rfl
@[simp] theorem pop_pc (s : State) (h : 0 < s.sp.val) : (s.pop h).pc = s.pc := rfl
@[simp] theorem pop_stack (s : State) (h : 0 < s.sp.val) : (s.pop h).stack = s.stack := rfl
@[simp] theorem pop_sp (s : State) (h : 0 < s.sp.val) : (s.pop h).sp = ⟨s.sp.val - 1, by omega⟩ := rfl
@[simp] theorem pop_dt (s : State) (h : 0 < s.sp.val) : (s.pop h).dt = s.dt := rfl
@[simp] theorem pop_st (s : State) (h : 0 < s.sp.val) : (s.pop h).st = s.st := rfl
@[simp] theorem pop_disp (s : State) (h : 0 < s.sp.val) : (s.pop h).disp = s.disp := rfl
@[simp] theorem pop_wait (s : State) (h : 0 < s.sp.val) : (s.pop h).wait = s.wait := rfl
@[simp] theorem pop_reports (s : State) (h : 0 < s.sp.val) : (s.pop h).reports = s.reports := rfl
@[simp] theorem pop_config (s : State) (h : 0 < s.sp.val) : (s.pop h).config = s.config := rfl
@[simp] theorem pop_input (s : State) (h : 0 < s.sp.val) : (s.pop h).input = s.input := rfl
@[simp] theorem pop_pending (s : State) (h : 0 < s.sp.val) : (s.pop h).pending = s.pending := rfl
@[simp] theorem pop_inputsTaken (s : State) (h : 0 < s.sp.val) : (s.pop h).inputsTaken = s.inputsTaken := rfl

/-! ### `State.setDisp` -/

@[simp] theorem setDisp_mem (s : State) (d : Display) : (s.setDisp d).mem = s.mem := rfl
@[simp] theorem setDisp_reg (s : State) (d : Display) : (s.setDisp d).reg = s.reg := rfl
@[simp] theorem setDisp_i (s : State) (d : Display) : (s.setDisp d).i = s.i := rfl
@[simp] theorem setDisp_pc (s : State) (d : Display) : (s.setDisp d).pc = s.pc := rfl
@[simp] theorem setDisp_stack (s : State) (d : Display) : (s.setDisp d).stack = s.stack := rfl
@[simp] theorem setDisp_sp (s : State) (d : Display) : (s.setDisp d).sp = s.sp := rfl
@[simp] theorem setDisp_dt (s : State) (d : Display) : (s.setDisp d).dt = s.dt := rfl
@[simp] theorem setDisp_st (s : State) (d : Display) : (s.setDisp d).st = s.st := rfl
@[simp] theorem setDisp_disp (s : State) (d : Display) : (s.setDisp d).disp = d := rfl
@[simp] theorem setDisp_wait (s : State) (d : Display) : (s.setDisp d).wait = s.wait := rfl
@[simp] theorem setDisp_reports (s : State) (d : Display) : (s.setDisp d).reports = s.reports := rfl
@[simp] theorem setDisp_config (s : State) (d : Display) : (s.setDisp d).config = s.config := rfl
@[simp] theorem setDisp_input (s : State) (d : Display) : (s.setDisp d).input = s.input := rfl
@[simp] theorem setDisp_pending (s : State) (d : Display) : (s.setDisp d).pending = s.pending := rfl
@[simp] theorem setDisp_inputsTaken (s : State) (d : Display) : (s.setDisp d).inputsTaken = s.inputsTaken := rfl

/-! ### `State.report` -/

@[simp] theorem report_mem (s : State) (kd : ReportKind) (op : Word) : (s.report kd op).mem = s.mem := rfl
@[simp] theorem report_reg (s : State) (kd : ReportKind) (op : Word) : (s.report kd op).reg = s.reg := rfl
@[simp] theorem report_i (s : State) (kd : ReportKind) (op : Word) : (s.report kd op).i = s.i := rfl
@[simp] theorem report_pc (s : State) (kd : ReportKind) (op : Word) : (s.report kd op).pc = s.pc := rfl
@[simp] theorem report_stack (s : State) (kd : ReportKind) (op : Word) : (s.report kd op).stack = s.stack := rfl
@[simp] theorem report_sp (s : State) (kd : ReportKind) (op : Word) : (s.report kd op).sp = s.sp := rfl
@[simp] theorem report_dt (s : State) (kd : ReportKind) (op : Word) : (s.report kd op).dt = s.dt := rfl
@[simp] theorem report_st (s : State) (kd : ReportKind) (op : Word) : (s.report kd op).st = s.st := rfl
@[simp] theorem report_disp (s : State) (kd : ReportKind) (op : Word) : (s.report kd op).disp = s.disp := rfl
@[simp] theorem report_wait (s : State) (kd : ReportKind) (op : Word) : (s.report kd op).wait = s.wait := rfl
@[simp] theorem report_reports (s : State) (kd : ReportKind) (op : Word) : (s.report kd op).reports = s.reports ++ [{ kind := kd, opcode := op, pc := s.fetchPc }] := rfl
@[simp] theorem report_config (s : State) (kd : ReportKind) (op : Word) : (s.report kd op).config = s.config := rfl
@[simp] theorem report_input (s : State) (kd : ReportKind) (op : Word) : (s.report kd op).input = s.input := rfl
@[simp] theorem report_pending (s : State) (kd : ReportKind) (op : Word) : (s.report kd op).pending = s.pending := rfl
@[simp] theorem report_inputsTaken (s : State) (kd : ReportKind) (op : Word) : (s.report kd op).inputsTaken = s.inputsTaken := rfl

/-! ### `State.setInput` -/

@[simp] theorem setInput_mem (s : State) (inp : Input) : (s.setInput inp).mem = s.mem := rfl
@[simp] theorem setInput_reg (s : State) (inp : Input) : (s.setInput inp).reg = s.reg := rfl
@[simp] theorem setInput_i (s : State) (inp : Input) : (s.setInput inp).i = s.i := rfl
@[simp] theorem setInput_pc (s : State) (inp : Input) : (s.setInput inp).pc = s.pc := rfl
@[simp] theorem setInput_stack (s : State) (inp : Input) : (s.setInput inp).stack = s.stack := rfl
@[simp] theorem setInput_sp (s : State) (inp : Input) : (s.setInput inp).sp = s.sp := rfl
@[simp] theorem setInput_dt (s : State) (inp : Input) : (s.setInput inp).dt = s.dt := rfl
@[simp] theorem setInput_st (s : State) (inp : Input) : (s.setInput inp).st = s.st := rfl
@[simp] theorem setInput_disp (s : State) (inp : Input) : (s.setInput inp).disp = s.disp := rfl
@[simp] theorem setInput_wait (s : State) (inp : Input) : (s.setInput inp).wait = s.wait := rfl
@[simp] theorem setInput_reports (s : State) (inp : Input) : (s.setInput inp).reports = s.reports := rfl
@[simp] theorem setInput_config (s : State) (inp : Input) : (s.setInput inp).config = s.config := rfl
@[simp] theorem setInput_input (s : State) (inp : Input) : (s.setInput inp).input = inp := rfl
@[simp] theorem setInput_pending (s : State) (inp : Input) : (s.setInput inp).pending = s.pending := rfl
@[simp] theorem setInput_inputsTaken (s : State) (inp : Input) : (s.setInput inp).inputsTaken = s.inputsTaken := rfl

/-! ### `State.countInput` -/

@[simp] theorem countInput_mem (s : State) : (s.countInput).mem = s.mem := rfl
@[simp] theorem countInput_reg (s : State) : (s.countInput).reg = s.reg := rfl
@[simp] theorem countInput_i (s : State) : (s.countInput).i = s.i := rfl
@[simp] theorem countInput_pc (s : State) : (s.countInput).pc = s.pc := rfl
@[simp] theorem countInput_stack (s : State) : (s.countInput).stack = s.stack := rfl
@[simp] theorem countInput_sp (s : State) : (s.countInput).sp = s.sp := rfl
@[simp] theorem countInput_dt (s : State) : (s.countInput).dt = s.dt := rfl
@[simp] theorem countInput_st (s : State) : (s.countInput).st = s.st := rfl
@[simp] theorem countInput_disp (s : State) : (s.countInput).disp = s.disp := rfl
@[simp] theorem countInput_wait (s : State) : (s.countInput).wait = s.wait := rfl
@[simp] theorem countInput_reports (s : State) : (s.countInput).reports = s.reports := rfl
@[simp] theorem countInput_config (s : State) : (s.countInput).config = s.config := rfl
@[simp] theorem countInput_input (s : State) : (s.countInput).input = s.input := rfl
@[simp] theorem countInput_pending (s : State) : (s.countInput).pending = s.pending := rfl
@[simp] theorem countInput_inputsTaken (s : State) : (s.countInput).inputsTaken = s.inputsTaken + 1 := rfl

/-! ### `State.setPending` -/

@[simp] theorem setPending_mem (s : State) (ops : List HostOp) : (s.setPending ops).mem = s.mem := rfl
@[simp] theorem setPending_reg (s : State) (ops : List HostOp) : (s.setPending ops).reg = s.reg := rfl
@[simp] theorem setPending_i (s : State) (ops : List HostOp) : (s.setPending ops).i = s.i := rfl
@[simp] theorem setPending_pc (s : State) (ops : List HostOp) : (s.setPending ops).pc = s.pc := rfl
@[simp] theorem setPending_stack (s : State) (ops : List HostOp) : (s.setPending ops).stack = s.stack := rfl
@[simp] theorem setPending_sp (s : State) (ops : List HostOp) : (s.setPending ops).sp = s.sp := rfl
@[simp] theorem setPending_dt (s : State) (ops : List HostOp) : (s.setPending ops).dt = s.dt := rfl
@[simp] theorem setPending_st (s : State) (ops : List HostOp) : (s.setPending ops).st = s.st := rfl
@[simp] theorem setPending_disp (s : State) (ops : List HostOp) : (s.setPending ops).disp = s.disp := rfl
@[simp] theorem setPending_wait (s : State) (ops : List HostOp) : (s.setPending ops).wait = s.wait := rfl
@[simp] theorem setPending_reports (s : State) (ops : List HostOp) : (s.setPending ops).reports = s.reports := rfl
@[simp] theorem setPending_config (s : State) (ops : List HostOp) : (s.setPending ops).config = s.config := rfl
@[simp] theorem setPending_input (s : State) (ops : List HostOp) : (s.setPending ops).input = s.input := rfl
@[simp] theorem setPending_pending (s : State) (ops : List HostOp) : (s.setPending ops).pending = ops := rfl
@[simp] theorem setPending_inputsTaken (s : State) (ops : List HostOp) : (s.setPending ops).inputsTaken = s.inputsTaken := rfl

/-! ### What the shared reads see -/

@[simp] theorem readReg_memWrite (s : State) (a : Nat) (v : Byte) (y : Reg) : (s.memWrite a v).readReg y = s.readReg y := rfl
@[simp] theorem readReg_setPc (s : State) (v : Word) (y : Reg) : (s.setPc v).readReg y = s.readReg y := rfl
@[simp] theorem readReg_setI (s : State) (v : Word) (y : Reg) : (s.setI v).readReg y = s.readReg y := rfl
@[simp] theorem readReg_setDt (s : State) (v : Byte) (y : Reg) : (s.setDt v).readReg y = s.readReg y := rfl
@[simp] theorem readReg_setSt (s : State) (v : Byte) (y : Reg) : (s.setSt v).readReg y = s.readReg y := rfl
@[simp] theorem readReg_setWait (s : State) (w : Option Reg) (y : Reg) : (s.setWait w).readReg y = s.readReg y := rfl
@[simp] theorem readReg_push (s : State) (v : Word) (h : s.sp.val < 16) (y : Reg) : (s.push v h).readReg y = s.readReg y := rfl
@[simp] theorem readReg_pop (s : State) (h : 0 < s.sp.val) (y : Reg) : (s.pop h).readReg y = s.readReg y := rfl
@[simp] theorem readReg_setDisp (s : State) (d : Display) (y : Reg) : (s.setDisp d).readReg y = s.readReg y := rfl
@[simp] theorem readReg_report (s : State) (kd : ReportKind) (op : Word) (y : Reg) : (s.report kd op).readReg y = s.readReg y := rfl
@[simp] theorem readReg_setInput (s : State) (inp : Input) (y : Reg) : (s.setInput inp).readReg y = s.readReg y := rfl
@[simp] theorem readReg_countInput (s : State) (y : Reg) : (s.countInput).readReg y = s.readReg y := rfl
@[simp] theorem readReg_setPending (s : State) (ops : List HostOp) (y : Reg) : (s.setPending ops).readReg y = s.readReg y := rfl

@[simp] theorem memRead_writeReg (s : State) (x : Reg) (v : Byte) (b : Nat) : (s.writeReg x v).memRead b = s.memRead b := rfl
@[simp] theorem memRead_setPc (s : State) (v : Word) (b : Nat) : (s.setPc v).memRead b = s.memRead b := rfl
@[simp] theorem memRead_setI (s : State) (v : Word) (b : Nat) : (s.setI v).memRead b = s.memRead b := rfl
@[simp] theorem memRead_setDt (s : State) (v : Byte) (b : Nat) : (s.setDt v).memRead b = s.memRead b := rfl
@[simp] theorem memRead_setSt (s : State) (v : Byte) (b : Nat) : (s.setSt v).memRead b = s.memRead b := rfl
@[simp] theorem memRead_setWait (s : State) (w : Option Reg) (b : Nat) : (s.setWait w).memRead b = s.memRead b := rfl
@[simp] theorem memRead_push (s : State) (v : Word) (h : s.sp.val < 16) (b : Nat) : (s.push v h).memRead b = s.memRead b := rfl
@[simp] theorem memRead_pop (s : State) (h : 0 < s.sp.val) (b : Nat) : (s.pop h).memRead b = s.memRead b := rfl
@[simp] theorem memRead_setDisp (s : State) (d : Display) (b : Nat) : (s.setDisp d).memRead b = s.memRead b := rfl
@[simp] theorem memRead_report (s : State) (kd : ReportKind) (op : Word) (b : Nat) : (s.report kd op).memRead b = s.memRead b := rfl
@[simp] theorem memRead_setInput (s : State) (inp : Input) (b : Nat) : (s.setInput inp).memRead b = s.memRead b := rfl
@[simp] theorem memRead_countInput (s : State) (b : Nat) : (s.countInput).memRead b = s.memRead b := rfl
@[simp] theorem memRead_setPending (s : State) (ops : List HostOp) (b : Nat) : (s.setPending ops).memRead b = s.memRead b := rfl

@[simp] theorem ea_memWrite (s : State) (a : Nat) (v : Byte) (k : Nat) : (s.memWrite a v).ea k = s.ea k := rfl
@[simp] theorem ea_writeReg (s : State) (x : Reg) (v : Byte) (k : Nat) : (s.writeReg x v).ea k = s.ea k := rfl
@[simp] theorem ea_setPc (s : State) (v : Word) (k : Nat) : (s.setPc v).ea k = s.ea k := rfl
@[simp] theorem ea_setDt (s : State) (v : Byte) (k : Nat) : (s.setDt v).ea k = s.ea k := rfl
@[simp] theorem ea_setSt (s : State) (v : Byte) (k : Nat) : (s.setSt v).ea k = s.ea k := rfl
@[simp] theorem ea_setWait (s : State) (w : Option Reg) (k : Nat) : (s.setWait w).ea k = s.ea k := rfl
@[simp] theorem ea_push (s : State) (v : Word) (h : s.sp.val < 16) (k : Nat) : (s.push v h).ea k = s.ea k := rfl
@[simp] theorem ea_pop (s : State) (h : 0 < s.sp.val) (k : Nat) : (s.pop h).ea k = s.ea k := rfl
@[simp] theorem ea_setDisp (s : State) (d : Display) (k : Nat) : (s.setDisp d).ea k = s.ea k := rfl
@[simp] theorem ea_report (s : State) (kd : ReportKind) (op : Word) (k : Nat) : (s.report kd op).ea k = s.ea k := rfl
@[simp] theorem ea_setInput (s : State) (inp : Input) (k : Nat) : (s.setInput inp).ea k = s.ea k := rfl
@[simp] theorem ea_countInput (s : State) (k : Nat) : (s.countInput).ea k = s.ea k := rfl
@[simp] theorem ea_setPending (s : State) (ops : List HostOp) (k : Nat) : (s.setPending ops).ea k = s.ea k := rfl

@[simp] theorem keyPressed_memWrite (s : State) (a : Nat) (v : Byte) (u : Byte) : (s.memWrite a v).keyPressed u = s.keyPressed u := rfl
@[simp] theorem keyPressed_writeReg (s : State) (x : Reg) (v : Byte) (u : Byte) : (s.writeReg x v).keyPressed u = s.keyPressed u := rfl
@[simp] theorem keyPressed_setPc (s : State) (v : Word) (u : Byte) : (s.setPc v).keyPressed u = s.keyPressed u := rfl
@[simp] theorem keyPressed_setI (s : State) (v : Word) (u : Byte) : (s.setI v).keyPressed u = s.keyPressed u := rfl
@[simp] theorem keyPressed_setDt (s : State) (v : Byte) (u : Byte) : (s.setDt v).keyPressed u = s.keyPressed u := rfl
@[simp] theorem keyPressed_setSt (s : State) (v : Byte) (u : Byte) : (s.setSt v).keyPressed u = s.keyPressed u := rfl
@[simp] theorem keyPressed_setWait (s : State) (w : Option Reg) (u : Byte) : (s.setWait w).keyPressed u = s.keyPressed u := rfl
@[simp] theorem keyPressed_push (s : State) (v : Word) (h : s.sp.val < 16) (u : Byte) : (s.push v h).keyPressed u = s.keyPressed u := rfl
@[simp] theorem keyPressed_pop (s : State) (h : 0 < s.sp.val) (u : Byte) : (s.pop h).keyPressed u = s.keyPressed u := rfl
@[simp] theorem keyPressed_setDisp (s : State) (d : Display) (u : Byte) : (s.setDisp d).keyPressed u = s.keyPressed u := rfl
@[simp] theorem keyPressed_report (s : State) (kd : ReportKind) (op : Word) (u : Byte) : (s.report kd op).keyPressed u = s.keyPressed u := rfl
@[simp] theorem keyPressed_countInput (s : State) (u : Byte) : (s.countInput).keyPressed u = s.keyPressed u := rfl
@[simp] theorem keyPressed_setPending (s : State) (ops : List HostOp) (u : Byte) : (s.setPending ops).keyPressed u = s.keyPressed u := rfl

@[simp] theorem drawByte_memWrite (s : State) (a : Nat) (v : Byte) : (s.memWrite a v).drawByte = s.drawByte := rfl
@[simp] theorem drawByte_writeReg (s : State) (x : Reg) (v : Byte) : (s.writeReg x v).drawByte = s.drawByte := rfl
@[simp] theorem drawByte_setPc (s : State) (v : Word) : (s.setPc v).drawByte = s.drawByte := rfl
@[simp] theorem drawByte_setI (s : State) (v : Word) : (s.setI v).drawByte = s.drawByte := rfl
@[simp] theorem drawByte_setDt (s : State) (v : Byte) : (s.setDt v).drawByte = s.drawByte := rfl
@[simp] theorem drawByte_setSt (s : State) (v : Byte) : (s.setSt v).drawByte = s.drawByte := rfl
@[simp] theorem drawByte_setWait (s : State) (w : Option Reg) : (s.setWait w).drawByte = s.drawByte := rfl
@[simp] theorem drawByte_push (s : State) (v : Word) (h : s.sp.val < 16) : (s.push v h).drawByte = s.drawByte := rfl
@[simp] theorem drawByte_pop (s : State) (h : 0 < s.sp.val) : (s.pop h).drawByte = s.drawByte := rfl
@[simp] theorem drawByte_setDisp (s : State) (d : Display) : (s.setDisp d).drawByte = s.drawByte := rfl
@[simp] theorem drawByte_report (s : State) (kd : ReportKind) (op : Word) : (s.report kd op).drawByte = s.drawByte := rfl
@[simp] theorem drawByte_countInput (s : State) : (s.countInput).drawByte = s.drawByte := rfl
@[simp] theorem drawByte_setPending (s : State) (ops : List HostOp) : (s.setPending ops).drawByte = s.drawByte := rfl

end Sys2Proof.Machine
end

