-- ==== Sys2Proof/Laws/Registers.lean ====
section
/-! SUPPORT. Register reads after register writes, the skip, and the flags as numbers. -/

namespace Sys2Proof.Machine

/-- A register write is seen by that register and by no other (R22). -/
theorem readReg_writeReg (s : State) (x y : Reg) (v : Byte) :
    (s.writeReg x v).readReg y = if x = y then v else s.readReg y := by
  simp only [State.readReg, State.writeReg]
  rcases eq_or_ne x y with rfl | h
  · simp
  · have : x.val ≠ y.val := fun e => h (Fin.ext e)
    simp [h, this]

@[simp] theorem readReg_writeReg_same (s : State) (x : Reg) (v : Byte) : (s.writeReg x v).readReg x = v := by
  simp [readReg_writeReg]

theorem readReg_writeReg_other (s : State) {x y : Reg} (v : Byte) (h : x ≠ y) :
    (s.writeReg x v).readReg y = s.readReg y := by
  simp [readReg_writeReg, h]

/-- Two register files that read alike are equal. -/
theorem reg_ext {s t : State} (h : ∀ r, t.readReg r = s.readReg r) : t.reg = s.reg := by
  apply Vector.ext
  intro k hk
  exact h ⟨k, hk⟩

/-- A skip changes the program counter by two, or nothing (R120). -/
theorem skipIf_eq (s : State) (c : Bool) : s.skipIf c = s.setPc (if c then s.pc + 2 else s.pc) := by
  cases c <;> rfl

@[simp] theorem flagByte_true : flagByte true = 1 := rfl
@[simp] theorem flagByte_false : flagByte false = 0 := rfl

/-- A flag is 0 or 1. -/
theorem flagByte_toNat (b : Bool) : (flagByte b).toNat = if b then 1 else 0 := by cases b <;> rfl

/-- The not-borrow flag compares unsigned values (R137). -/
theorem notBorrowFlag_eq (a b : Byte) : notBorrowFlag a b = if b.toNat ≤ a.toNat then 1 else 0 := by
  simp [notBorrowFlag, flagByte]

/-- The carry flag is the sum's excess over a byte (R136). -/
theorem carryFlag_eq (n : Nat) : carryFlag n = if 255 < n then 1 else 0 := by
  simp [carryFlag, flagByte]

/-- The bit an eight-bit right shift drops is bit 0 (R138). -/
theorem shiftRightFlag_toNat (v : Byte) : (shiftRightFlag v).toNat = v.toNat % 2 := by
  have := Nat.and_one_is_mod v.toNat
  simp [shiftRightFlag, this]

/-- The bit an eight-bit left shift drops is bit 7 (R140). -/
theorem shiftLeftFlag_toNat (v : Byte) : (shiftLeftFlag v).toNat = v.toNat / 128 := by
  revert v; decide

/-- A count-down stops at zero (R181). -/
theorem countDown_toNat (t : Byte) : (countDown t).toNat = t.toNat - 1 := by
  unfold countDown
  split
  · rw [BitVec.toNat_sub_of_le] <;> simp [BitVec.le_def]; omega
  · omega

/-- A loop counter below 16 names that register. -/
theorem regAt_val {k : Nat} (h : k < 16) : (regAt k).val = k := by simp [regAt, Fin.ofNat, Nat.mod_eq_of_lt h]

/-- Every register is the one its number names. -/
@[simp] theorem regAt_reg (x : Reg) : regAt x.val = x := Fin.ext (regAt_val x.isLt)

/-- Under `mask` the key is the value mod 16 (R166). -/
theorem keyPressed_mask {s : State} (h : s.config.keyIndexMode = .mask) {v : Byte} {k : Key}
    (hk : k.val = v.toNat % 16) : s.keyPressed v = s.keyDown k := by
  simp only [State.keyPressed, h]
  congr 1
  simp [Fin.ext_iff, hk, Fin.ofNat, Nat.and_two_pow_sub_one_eq_mod _ 4]

/-- Under `invalid_not_pressed` a value up to 0xF is the key (R166). -/
theorem keyPressed_valid {s : State} (h : s.config.keyIndexMode = .invalidNotPressed) {v : Byte} {k : Key}
    (hk : k.val = v.toNat) : s.keyPressed v = s.keyDown k := by
  simp only [State.keyPressed, h]
  rw [if_pos (by omega)]
  congr 1
  simp [← hk]

/-- Under `invalid_not_pressed` a value above 0xF is no key and not pressed (R166). -/
theorem keyPressed_invalid {s : State} (h : s.config.keyIndexMode = .invalidNotPressed) {v : Byte}
    (hv : 15 < v.toNat) : s.keyPressed v = false := by
  simp only [State.keyPressed, h]
  rw [if_neg (by omega)]

end Sys2Proof.Machine
end

