-- ==== Sys2Proof/Laws/Draw.lean ====
section
/-! SUPPORT. What drawing a sprite leaves: which cells change, and VF (40_display.md R101). -/

namespace Sys2Proof.Machine

/-- Reading a cell after setting one. -/
theorem Display.cell_setCell (d : Display) (c c' : Fin 64) (r r' : Fin 32) (on : Bool) :
    (d.setCell c r on).cell c' r' = if c = c' ∧ r = r' then on else d.cell c' r' := by
  unfold Display.cell Display.setCell
  rcases eq_or_ne c c' with rfl | hc
  · rcases eq_or_ne r r' with rfl | hr
    · simp
    · have : r.val ≠ r'.val := fun e => hr (Fin.ext e)
      simp [hr, this]
  · have : c.val ≠ c'.val := fun e => hc (Fin.ext e)
    simp [hc, this]

/-- Two displays whose cells agree are equal. -/
theorem Display.ext_cell {d e : Display} (h : ∀ c r, d.cell c r = e.cell c r) : d = e := by
  apply Vector.ext
  intro c hc
  apply Vector.ext
  intro r hr
  exact h ⟨c, hc⟩ ⟨r, hr⟩

@[simp] theorem Display.cell_clear (c : Fin 64) (r : Fin 32) : Display.clear.cell c r = false := by
  simp [Display.cell, Display.clear]

/-- Flipping a cell: that cell is inverted, and VF is 1 if it was on (R101). -/
theorem flipCell_cell (s : State) (c c' : Fin 64) (r r' : Fin 32) :
    (s.flipCell c r).disp.cell c' r' =
      if c = c' ∧ r = r' then !s.disp.cell c' r' else s.disp.cell c' r' := by
  unfold State.flipCell
  by_cases hc : c = c' ∧ r = r'
  · obtain ⟨rfl, rfl⟩ := hc
    cases h : s.disp.cell c r <;> simp [Display.cell_setCell]
  · cases h : s.disp.cell c r <;> simp [Display.cell_setCell, hc]

theorem flipCell_on {s : State} {c : Fin 64} {r : Fin 32} (h : s.disp.cell c r = true) :
    s.flipCell c r = (s.writeReg vF 1).setDisp (s.disp.setCell c r false) := by
  simp [State.flipCell, h]

theorem flipCell_off {s : State} {c : Fin 64} {r : Fin 32} (h : s.disp.cell c r = false) :
    s.flipCell c r = s.setDisp (s.disp.setCell c r true) := by
  simp [State.flipCell, h]

theorem flipCell_vF (s : State) (c : Fin 64) (r : Fin 32) :
    (s.flipCell c r).readReg vF = if s.disp.cell c r then 1 else s.readReg vF := by
  unfold State.flipCell
  cases h : s.disp.cell c r <;> simp

/-- Drawing changes the display and VF, and nothing else. -/
structure DrawFrame (s t : State) : Prop where
  rest : t = { s with disp := t.disp, reg := t.reg }
  regs : ∀ r, r ≠ vF → t.readReg r = s.readReg r

theorem DrawFrame.refl (s : State) : DrawFrame s s := ⟨rfl, fun _ _ => rfl⟩

theorem DrawFrame.trans {s t u : State} (h : DrawFrame s t) (h' : DrawFrame t u) : DrawFrame s u :=
  ⟨by rw [h'.rest, h.rest], fun r hr => (h'.regs r hr).trans (h.regs r hr)⟩

theorem DrawFrame.memRead {s t : State} (h : DrawFrame s t) (a : Nat) : t.memRead a = s.memRead a := by
  rw [h.rest]; rfl

theorem DrawFrame.ea {s t : State} (h : DrawFrame s t) (k : Nat) : t.ea k = s.ea k := by
  rw [h.rest]; rfl

theorem flipCell_frame (s : State) (c : Fin 64) (r : Fin 32) : DrawFrame s (s.flipCell c r) := by
  unfold State.flipCell
  cases s.disp.cell c r
  · exact ⟨rfl, fun _ _ => rfl⟩
  · refine ⟨rfl, fun y hy => ?_⟩
    simp [readReg_writeReg_other s _ (Ne.symm hy)]

theorem drawBit_frame (s : State) (ox oy rowNo : Nat) (sprite : Byte) (col : Nat) :
    DrawFrame s (s.drawBit ox oy rowNo sprite col) := by
  unfold State.drawBit
  split
  · exact flipCell_frame s _ _
  · exact DrawFrame.refl s

theorem drawCols_frame (s : State) (ox oy rowNo : Nat) (sprite : Byte) (k : Nat) :
    DrawFrame s (s.drawCols ox oy rowNo sprite k) := by
  induction k with
  | zero => exact DrawFrame.refl s
  | succ k ih => exact ih.trans (drawBit_frame _ ox oy rowNo sprite k)

theorem drawRows_frame (s : State) (ox oy k : Nat) : DrawFrame s (s.drawRows ox oy k) := by
  induction k with
  | zero => exact DrawFrame.refl s
  | succ k ih => exact ih.trans (drawCols_frame _ ox oy k _ 8)

/-- Offsets below 64 name distinct columns (R101). -/
theorem column_inj {ox a b : Nat} (ha : a < 64) (hb : b < 64) (h : column (ox + a) = column (ox + b)) : a = b := by
  have := congrArg Fin.val h
  simp only [column, Fin.ofNat] at this
  omega

/-- Offsets below 32 name distinct rows (R101). -/
theorem row_inj {oy a b : Nat} (ha : a < 32) (hb : b < 32) (h : row (oy + a) = row (oy + b)) : a = b := by
  have := congrArg Fin.val h
  simp only [row, Fin.ofNat] at this
  omega

/-- One row inverts exactly the cells its bits fall on (R101). -/
theorem drawCols_cell (s : State) (ox oy rowNo : Nat) (sprite : Byte) {k : Nat} (hk : k ≤ 64)
    (c : Fin 64) (r : Fin 32) :
    (colsCover ox oy rowNo sprite k c r →
      (s.drawCols ox oy rowNo sprite k).disp.cell c r = !s.disp.cell c r) ∧
    (¬ colsCover ox oy rowNo sprite k c r →
      (s.drawCols ox oy rowNo sprite k).disp.cell c r = s.disp.cell c r) := by
  induction k with
  | zero => exact ⟨fun ⟨_, h, _⟩ => by omega, fun _ => rfl⟩
  | succ k ih =>
    have ih := ih (by omega)
    rw [State.drawCols, State.drawBit]
    by_cases hb : spriteBit sprite k = true
    · simp only [hb, if_true, flipCell_cell]
      by_cases hc : column (ox + k) = c ∧ row (oy + rowNo) = r
      · have hno : ¬ colsCover ox oy rowNo sprite k c r := fun ⟨col, h1, _, h3, _⟩ => by
          have := column_inj (by omega) (by omega) (h3.trans hc.1.symm); omega
        simp only [hc, and_self, if_true, ih.2 hno]
        exact ⟨fun _ => trivial, fun hn => absurd ⟨k, by omega, hb, hc.1, hc.2⟩ hn⟩
      · simp only [hc, if_false]
        refine ⟨fun ⟨col, h1, h2, h3, h4⟩ => ?_, fun hn => ?_⟩
        · rcases Nat.lt_succ_iff_lt_or_eq.mp h1 with h | rfl
          · exact ih.1 ⟨col, h, h2, h3, h4⟩
          · exact absurd ⟨h3, h4⟩ hc
        · exact ih.2 fun ⟨col, h, h'⟩ => hn ⟨col, by omega, h'⟩
    · simp only [hb, Bool.false_eq_true, if_false]
      refine ⟨fun ⟨col, h1, h2, h3, h4⟩ => ?_, fun hn => ?_⟩
      · rcases Nat.lt_succ_iff_lt_or_eq.mp h1 with h | rfl
        · exact ih.1 ⟨col, h, h2, h3, h4⟩
        · exact absurd h2 hb
      · exact ih.2 fun ⟨col, h, h'⟩ => hn ⟨col, by omega, h'⟩

/-- One row sets VF if one of its bits falls on a cell that was on, and else leaves it (R101). -/
theorem drawCols_vF (s : State) (ox oy rowNo : Nat) (sprite : Byte) {k : Nat} (hk : k ≤ 64) :
    ((∃ c r, colsCover ox oy rowNo sprite k c r ∧ s.disp.cell c r = true) →
      (s.drawCols ox oy rowNo sprite k).readReg vF = 1) ∧
    ((¬ ∃ c r, colsCover ox oy rowNo sprite k c r ∧ s.disp.cell c r = true) →
      (s.drawCols ox oy rowNo sprite k).readReg vF = s.readReg vF) := by
  induction k with
  | zero => exact ⟨fun ⟨_, _, ⟨_, h, _⟩, _⟩ => by omega, fun _ => rfl⟩
  | succ k ih =>
    have ih := ih (by omega)
    rw [State.drawCols, State.drawBit]
    by_cases hb : spriteBit sprite k = true
    · simp only [hb, if_true, flipCell_vF]
      have hcell : (s.drawCols ox oy rowNo sprite k).disp.cell (column (ox + k)) (row (oy + rowNo)) =
          s.disp.cell (column (ox + k)) (row (oy + rowNo)) :=
        (drawCols_cell s ox oy rowNo sprite (by omega) _ _).2 fun ⟨col, h1, _, h3, _⟩ => by
          have := column_inj (by omega) (by omega) h3; omega
      rw [hcell]
      by_cases hon : s.disp.cell (column (ox + k)) (row (oy + rowNo)) = true
      · simp only [hon, if_true]
        exact ⟨fun _ => trivial, fun hn => absurd ⟨_, _, ⟨k, by omega, hb, rfl, rfl⟩, hon⟩ hn⟩
      · simp only [hon]
        refine ⟨fun ⟨c, r, ⟨col, h1, h2, h3, h4⟩, h5⟩ => ?_, fun hn => ?_⟩
        · rcases Nat.lt_succ_iff_lt_or_eq.mp h1 with h | rfl
          · exact ih.1 ⟨c, r, ⟨col, h, h2, h3, h4⟩, h5⟩
          · subst h3 h4; exact absurd h5 hon
        · exact ih.2 fun ⟨c, r, ⟨col, h, h'⟩, h5⟩ => hn ⟨c, r, ⟨col, by omega, h'⟩, h5⟩
    · simp only [hb, Bool.false_eq_true, if_false]
      refine ⟨fun ⟨c, r, ⟨col, h1, h2, h3⟩, h5⟩ => ?_, fun hn => ?_⟩
      · rcases Nat.lt_succ_iff_lt_or_eq.mp h1 with h | rfl
        · exact ih.1 ⟨c, r, ⟨col, h, h2, h3⟩, h5⟩
        · exact absurd h2 hb
      · exact ih.2 fun ⟨c, r, ⟨col, h, h'⟩, h5⟩ => hn ⟨c, r, ⟨col, by omega, h'⟩, h5⟩

/-- Drawing the first `k` rows inverts exactly the cells the sprite covers: each is touched at most once (R101). -/
theorem drawRows_cell (s : State) (ox oy : Nat) {k : Nat} (hk : k ≤ 32) (c : Fin 64) (r : Fin 32) :
    (rowsCover s ox oy k c r → (s.drawRows ox oy k).disp.cell c r = !s.disp.cell c r) ∧
    (¬ rowsCover s ox oy k c r → (s.drawRows ox oy k).disp.cell c r = s.disp.cell c r) := by
  induction k with
  | zero => exact ⟨fun ⟨_, h, _⟩ => by omega, fun _ => rfl⟩
  | succ k ih =>
    have ih := ih (by omega)
    have hf := drawRows_frame s ox oy k
    rw [State.drawRows, State.drawRow, hf.ea, hf.memRead]
    have hd := drawCols_cell (s.drawRows ox oy k) ox oy k (s.memRead (s.ea k)) (k := 8) (by omega) c r
    by_cases hc : colsCover ox oy k (s.memRead (s.ea k)) 8 c r
    · have hno : ¬ rowsCover s ox oy k c r := fun ⟨rowNo, h1, _, _, _, _, h4⟩ => by
        obtain ⟨_, _, _, _, h4'⟩ := hc
        have := row_inj (by omega) (by omega) (h4.trans h4'.symm); omega
      rw [hd.1 hc, ih.2 hno]
      exact ⟨fun _ => rfl, fun hn => absurd ⟨k, by omega, hc⟩ hn⟩
    · rw [hd.2 hc]
      refine ⟨fun ⟨rowNo, h1, h2⟩ => ?_, fun hn => ?_⟩
      · rcases Nat.lt_succ_iff_lt_or_eq.mp h1 with h | rfl
        · exact ih.1 ⟨rowNo, h, h2⟩
        · exact absurd h2 hc
      · exact ih.2 fun ⟨rowNo, h, h'⟩ => hn ⟨rowNo, by omega, h'⟩

/-- Drawing the first `k` rows sets VF if the sprite covers a cell that was on, and else leaves it (R101). -/
theorem drawRows_vF (s : State) (ox oy : Nat) {k : Nat} (hk : k ≤ 32) :
    ((∃ c r, rowsCover s ox oy k c r ∧ s.disp.cell c r = true) → (s.drawRows ox oy k).readReg vF = 1) ∧
    ((¬ ∃ c r, rowsCover s ox oy k c r ∧ s.disp.cell c r = true) →
      (s.drawRows ox oy k).readReg vF = s.readReg vF) := by
  induction k with
  | zero => exact ⟨fun ⟨_, _, ⟨_, h, _⟩, _⟩ => by omega, fun _ => rfl⟩
  | succ k ih =>
    have ih := ih (by omega)
    have hf := drawRows_frame s ox oy k
    rw [State.drawRows, State.drawRow, hf.ea, hf.memRead]
    have hd := drawCols_vF (s.drawRows ox oy k) ox oy k (s.memRead (s.ea k)) (k := 8) (by omega)
    have hcell : ∀ c r, colsCover ox oy k (s.memRead (s.ea k)) 8 c r →
        (s.drawRows ox oy k).disp.cell c r = s.disp.cell c r := fun c r hc =>
      (drawRows_cell s ox oy (by omega) c r).2 fun ⟨rowNo, h1, _, _, _, _, h4⟩ => by
        obtain ⟨_, _, _, _, h4'⟩ := hc
        have := row_inj (by omega) (by omega) (h4.trans h4'.symm); omega
    by_cases hc : ∃ c r, colsCover ox oy k (s.memRead (s.ea k)) 8 c r ∧ (s.drawRows ox oy k).disp.cell c r = true
    · rw [hd.1 hc]
      obtain ⟨c, r, hc, hon⟩ := hc
      exact ⟨fun _ => rfl, fun hn => absurd ⟨c, r, ⟨k, by omega, hc⟩, (hcell c r hc) ▸ hon⟩ hn⟩
    · rw [hd.2 hc]
      refine ⟨fun ⟨c, r, ⟨rowNo, h1, h2⟩, hon⟩ => ?_, fun hn => ?_⟩
      · rcases Nat.lt_succ_iff_lt_or_eq.mp h1 with h | rfl
        · exact ih.1 ⟨c, r, ⟨rowNo, h, h2⟩, hon⟩
        · exact absurd ⟨c, r, h2, (hcell c r h2).symm ▸ hon⟩ hc
      · exact ih.2 fun ⟨c, r, ⟨rowNo, h, h'⟩, hon⟩ => hn ⟨c, r, ⟨rowNo, by omega, h'⟩, hon⟩

end Sys2Proof.Machine
end

