-- ==== Sys2Proof/Laws/Encoding.lean ====
section
/-! SUPPORT. The fields of an encoded word, and a word put together again from its fields (30_encoding.md R73). -/

namespace Sys2Proof

@[simp] theorem regOfBits_regBits (x : Reg) : regOfBits (regBits x) = x := by revert x; decide
@[simp] theorem regBits_regOfBits (b : BitVec 4) : regBits (regOfBits b) = b := by revert b; decide

/-! ### What each field reads from an encoded word -/

@[simp] theorem fieldGroup_encodeNNN (g : BitVec 4) (a : Addr) : fieldGroup (encodeNNN g a) = g := by
  apply BitVec.eq_of_getLsbD_eq
  intro i hi
  simp only [fieldGroup, encodeNNN, BitVec.getLsbD_extractLsb', BitVec.getLsbD_append]
  have : ¬ (12 + i < 12) := by omega
  simp [hi, this]

@[simp] theorem fieldNNN_encodeNNN (g : BitVec 4) (a : Addr) : fieldNNN (encodeNNN g a) = a := by
  apply BitVec.eq_of_getLsbD_eq
  intro i hi
  simp only [fieldNNN, encodeNNN, BitVec.getLsbD_extractLsb', BitVec.getLsbD_append]
  simp [hi]

@[simp] theorem fieldGroup_encodeXNN (g : BitVec 4) (x : Reg) (nn : Byte) : fieldGroup (encodeXNN g x nn) = g :=
  fieldGroup_encodeNNN g _

@[simp] theorem fieldX_encodeXNN (g : BitVec 4) (x : Reg) (nn : Byte) : fieldX (encodeXNN g x nn) = x := by
  have h : (encodeXNN g x nn).extractLsb' 8 4 = regBits x := by
    apply BitVec.eq_of_getLsbD_eq
    intro i hi
    simp only [encodeXNN, BitVec.getLsbD_extractLsb', BitVec.getLsbD_append]
    have h1 : 8 + i < 12 := by omega
    have h2 : ¬ (8 + i < 8) := by omega
    simp [hi, h1, h2]
  rw [fieldX, h, regOfBits_regBits]

@[simp] theorem fieldNN_encodeXNN (g : BitVec 4) (x : Reg) (nn : Byte) : fieldNN (encodeXNN g x nn) = nn := by
  apply BitVec.eq_of_getLsbD_eq
  intro i hi
  simp only [fieldNN, encodeXNN, BitVec.getLsbD_extractLsb', BitVec.getLsbD_append]
  have h1 : i < 12 := by omega
  simp [hi, h1]

@[simp] theorem fieldGroup_encodeXYN (g : BitVec 4) (x y : Reg) (n : Nibble) : fieldGroup (encodeXYN g x y n) = g :=
  fieldGroup_encodeNNN g _

@[simp] theorem fieldX_encodeXYN (g : BitVec 4) (x y : Reg) (n : Nibble) : fieldX (encodeXYN g x y n) = x :=
  fieldX_encodeXNN g x _

@[simp] theorem fieldY_encodeXYN (g : BitVec 4) (x y : Reg) (n : Nibble) : fieldY (encodeXYN g x y n) = y := by
  have h : (encodeXYN g x y n).extractLsb' 4 4 = regBits y := by
    apply BitVec.eq_of_getLsbD_eq
    intro i hi
    simp only [encodeXYN, BitVec.getLsbD_extractLsb', BitVec.getLsbD_append]
    have h1 : 4 + i < 12 := by omega
    have h2 : 4 + i < 8 := by omega
    have h3 : ¬ (4 + i < 4) := by omega
    simp [hi, h1, h2, h3]
  rw [fieldY, h, regOfBits_regBits]

@[simp] theorem fieldN_encodeXYN (g : BitVec 4) (x y : Reg) (n : Nibble) : fieldN (encodeXYN g x y n) = n := by
  apply BitVec.eq_of_getLsbD_eq
  intro i hi
  simp only [fieldN, encodeXYN, BitVec.getLsbD_extractLsb', BitVec.getLsbD_append]
  have h1 : i < 12 := by omega
  have h2 : i < 8 := by omega
  simp [hi, h1, h2]

/-! ### A word from its fields -/

/-- A group is one of sixteen. -/
theorem group_cases (g : BitVec 4) :
    g = 0x0 ∨ g = 0x1 ∨ g = 0x2 ∨ g = 0x3 ∨ g = 0x4 ∨ g = 0x5 ∨ g = 0x6 ∨ g = 0x7 ∨
    g = 0x8 ∨ g = 0x9 ∨ g = 0xA ∨ g = 0xB ∨ g = 0xC ∨ g = 0xD ∨ g = 0xE ∨ g = 0xF := by
  revert g; decide

theorem encodeNNN_fields (op : Word) : encodeNNN (fieldGroup op) (fieldNNN op) = op := by
  apply BitVec.eq_of_getLsbD_eq
  intro i hi
  simp only [encodeNNN, fieldGroup, fieldNNN, BitVec.getLsbD_extractLsb', BitVec.getLsbD_append]
  by_cases h : i < 12
  · simp [h]
  · simp only [h, if_false]
    rw [show 12 + (i - 12) = i by omega]
    simp; omega

theorem encodeXNN_fields (op : Word) : encodeXNN (fieldGroup op) (fieldX op) (fieldNN op) = op := by
  have h : regBits (fieldX op) ++ fieldNN op = fieldNNN op := by
    rw [fieldX, regBits_regOfBits]
    apply BitVec.eq_of_getLsbD_eq
    intro i hi
    simp only [fieldNN, fieldNNN, BitVec.getLsbD_extractLsb', BitVec.getLsbD_append]
    by_cases h : i < 8
    · simp [h, hi]
    · simp only [h, if_false]
      rw [show 8 + (i - 8) = i by omega]
      simp [hi]; omega
  rw [encodeXNN, h]
  exact encodeNNN_fields op

theorem encodeXYN_fields (op : Word) : encodeXYN (fieldGroup op) (fieldX op) (fieldY op) (fieldN op) = op := by
  have h : regBits (fieldY op) ++ fieldN op = fieldNN op := by
    rw [fieldY, regBits_regOfBits]
    apply BitVec.eq_of_getLsbD_eq
    intro i hi
    simp only [fieldN, fieldNN, BitVec.getLsbD_extractLsb', BitVec.getLsbD_append]
    by_cases h : i < 4
    · simp [h, hi]
    · simp only [h, if_false]
      rw [show 4 + (i - 4) = i by omega]
      simp [hi]; omega
  rw [encodeXYN, h]
  exact encodeXNN_fields op

/-! ### A word under the masks of the opcode table -/

theorem and_F000 (op : Word) : op &&& 0xF000 = encodeNNN (fieldGroup op) 0 := by
  apply BitVec.eq_of_getLsbD_eq
  intro i hi
  simp only [encodeNNN, fieldGroup, BitVec.getLsbD_append, BitVec.getLsbD_extractLsb', BitVec.getLsbD_and]
  interval_cases i <;> simp [BitVec.getLsbD] <;> exact fun _ => rfl

theorem and_F00F (op : Word) : op &&& 0xF00F = encodeXYN (fieldGroup op) 0 0 (fieldN op) := by
  apply BitVec.eq_of_getLsbD_eq
  intro i hi
  simp only [encodeXYN, fieldGroup, fieldN, BitVec.getLsbD_append, BitVec.getLsbD_extractLsb', BitVec.getLsbD_and]
  interval_cases i <;> simp [BitVec.getLsbD, regBits] <;> exact fun _ => rfl

theorem and_F0FF (op : Word) : op &&& 0xF0FF = encodeXNN (fieldGroup op) 0 (fieldNN op) := by
  apply BitVec.eq_of_getLsbD_eq
  intro i hi
  simp only [encodeXNN, fieldGroup, fieldNN, BitVec.getLsbD_append, BitVec.getLsbD_extractLsb', BitVec.getLsbD_and]
  interval_cases i <;> simp [BitVec.getLsbD, regBits] <;> exact fun _ => rfl

/-- A word's two bytes, combined big-endian, give the word (R71). -/
theorem wordOfBytes_bytes (op : Word) : wordOfBytes (highByte op) (lowByte op) = op := by
  apply BitVec.eq_of_getLsbD_eq
  intro i hi
  simp only [wordOfBytes, highByte, lowByte, BitVec.getLsbD_extractLsb', BitVec.getLsbD_append]
  by_cases h : i < 8
  · simp [h]
  · simp only [h, if_false]
    rw [show 8 + (i - 8) = i by omega]
    simp; omega

/-- The byte at the lower address is the high byte (R54). -/
theorem wordOfBytes_toNat (hi lo : Byte) : (wordOfBytes hi lo).toNat = hi.toNat * 256 + lo.toNat := by
  rw [wordOfBytes, BitVec.toNat_append, ← Nat.shiftLeft_add_eq_or_of_lt lo.isLt, Nat.shiftLeft_eq]

/-- A two-byte list decodes as its word does. -/
theorem decodeBytes_two (hi lo : Byte) (rest : List Byte) :
    decodeBytes (hi :: lo :: rest) = (decode (wordOfBytes hi lo)).map fun i => (i, rest) := by
  simp only [decodeBytes]
  cases decode (wordOfBytes hi lo) <;> rfl

end Sys2Proof
end

