-- ==== Sys2Proof/Laws/Flow.lean ====
section
/-! SUPPORT. The two paths of 00EE and of 2nnn (41_flow.md R110, R112). -/

namespace Sys2Proof.Machine

theorem execRet_held {s : State} (h : 0 < s.sp.val) : execRet s = .next ((s.pop h).setPc (s.top h)) := by
  simp [execRet, h]

theorem execRet_empty {s : State} (h : s.sp.val = 0) : execRet s = .next (s.report .stackUnderflow (encode .ret)) := by
  simp [execRet, h]

theorem execCall_room {s : State} (nnn : Addr) (h : s.sp.val < 16) :
    execCall nnn s = .next ((s.push s.pc h).setPc (zextAddr nnn)) := by
  simp [execCall, h]

theorem execCall_full {s : State} (nnn : Addr) (h : s.sp.val = 16) :
    execCall nnn s = .next (s.report .stackOverflow (encode (.call nnn))) := by
  simp [execCall, h]

/-- An immediate address keeps its value when it is widened (R74). -/
theorem zextAddr_toNat (nnn : Addr) : (zextAddr nnn).toNat = nnn.toNat := by
  simp [zextAddr]; omega

/-- A byte keeps its value when it is widened (R74). -/
theorem zextByte_toNat (v : Byte) : (zextByte v).toNat = v.toNat := by
  simp [zextByte]; omega

end Sys2Proof.Machine
end

