-- ==== Sys2Proof/Laws/Memory.lean ====
section
/-! SUPPORT. Memory: read after write, and that every memory operation keeps the canonical form. The read laws hold
of every list of cells, canonical or not. -/

namespace Sys2Proof.Machine

/-- Erasing an address makes it read as unlisted and leaves the others alone. -/
theorem Memory.read_erase (m : Memory) (a a' : Nat) :
    Memory.read (Memory.erase m a) a' = if a = a' then Memory.resetByte a' else Memory.read m a' := by
  induction m with
  | nil => simp [Memory.erase, Memory.read]
  | cons cell m ih =>
    obtain ⟨k, v⟩ := cell
    simp only [Memory.erase, List.filter_cons] at ih ⊢
    by_cases hk : k = a
    · subst hk
      simp only [bne_self_eq_false, Bool.false_eq_true, if_false, ih, Memory.read]
      split <;> rfl
    · have : (k != a) = true := by simp [hk]
      simp only [this, if_true, Memory.read, ih]
      by_cases h' : k = a'
      · subst h'; simp [Ne.symm hk]
      · simp [h']

/-- An inserted cell is read back when no other cell has its address. -/
theorem Memory.read_insert (m : Memory) (a a' : Nat) (b : Byte) (h : ∀ c ∈ m, c.1 ≠ a) :
    Memory.read (Memory.insert m a b) a' = if a = a' then b else Memory.read m a' := by
  induction m with
  | nil => rfl
  | cons cell m ih =>
    obtain ⟨k, v⟩ := cell
    have hk : k ≠ a := h (k, v) (by simp)
    have ih := ih fun c hc => h c (by simp [hc])
    unfold Memory.insert
    split
    · simp [Memory.read]
    · simp only [Memory.read, ih]
      by_cases h' : k = a'
      · subst h'; simp [Ne.symm hk]
      · simp [h']

theorem Memory.erase_ne (m : Memory) (a : Nat) : ∀ c ∈ Memory.erase m a, c.1 ≠ a := by
  intro c hc
  have := (List.mem_filter.mp hc).2
  simpa using this

/-- Read after write (R52). -/
theorem Memory.read_write (m : Memory) (a a' : Nat) (b : Byte) :
    Memory.read (Memory.write m a b) a' = if a = a' then b else Memory.read m a' := by
  unfold Memory.write
  split
  · rename_i h
    rw [Memory.read_erase]
    split
    · rename_i h'; rw [h, h']
    · rfl
  · rw [Memory.read_insert _ _ _ _ (Memory.erase_ne m a), Memory.read_erase]
    split <;> rfl

/-- What a run of written bytes reads as. -/
theorem Memory.read_writeBytes (bs : List Byte) (m : Memory) (a a' : Nat) :
    Memory.read (Memory.writeBytes m a bs) a' =
      if h : a ≤ a' ∧ a' < a + bs.length then bs[a' - a]'(by omega) else Memory.read m a' := by
  induction bs generalizing m a with
  | nil => simp [Memory.writeBytes]
  | cons b bs ih =>
    simp only [Memory.writeBytes, ih, Memory.read_write, List.length_cons]
    by_cases h1 : a = a'
    · subst h1
      simp
    · by_cases h2 : a + 1 ≤ a' ∧ a' < a + 1 + bs.length
      · rw [dif_pos h2, dif_pos (by omega), List.getElem_cons]
        have : ¬ (a' - a = 0) := by omega
        simp only [this, dif_neg, not_false_eq_true]
        congr 1
      · rw [dif_neg h2, dif_neg (by omega), if_neg h1]

/-! ### The canonical form -/

/-- The canonical form says: every cell may be listed, and the addresses rise strictly. -/
theorem Memory.wf_iff (m : Memory) :
    Memory.wf m = true ↔ (∀ c ∈ m, Memory.cellOk c = true) ∧ m.Pairwise (fun c d => c.1 < d.1) := by
  induction m with
  | nil => simp [Memory.wf]
  | cons c m ih =>
    simp only [Memory.wf, Bool.and_eq_true, ih, List.all_eq_true, decide_eq_true_eq, List.pairwise_cons,
      List.mem_cons, forall_eq_or_imp]
    tauto

theorem Memory.wf_erase {m : Memory} (h : Memory.wf m = true) (a : Nat) : Memory.wf (Memory.erase m a) = true := by
  rw [Memory.wf_iff] at h ⊢
  exact ⟨fun c hc => h.1 c (List.mem_filter.mp hc).1, h.2.filter _⟩

theorem Memory.mem_insert {m : Memory} {a : Nat} {b : Byte} {c : Host.Cell} :
    c ∈ Memory.insert m a b ↔ c = (a, b) ∨ c ∈ m := by
  induction m with
  | nil => simp [Memory.insert]
  | cons d m ih =>
    obtain ⟨k, v⟩ := d
    unfold Memory.insert
    split
    · simp
    · simp [ih]; tauto

theorem Memory.wf_insert {m : Memory} {a : Nat} {b : Byte} (h : Memory.wf m = true) (ha : a < memorySize)
    (hb : b ≠ Memory.resetByte a) (hm : ∀ c ∈ m, c.1 ≠ a) : Memory.wf (Memory.insert m a b) = true := by
  rw [Memory.wf_iff] at h ⊢
  have hok : Memory.cellOk (a, b) = true := by simp [Memory.cellOk, ha, hb]
  refine ⟨fun c hc => ?_, ?_⟩
  · rcases Memory.mem_insert.mp hc with rfl | hc
    · exact hok
    · exact h.1 c hc
  · obtain ⟨-, hp⟩ := h
    induction m with
    | nil => simp [Memory.insert]
    | cons d m ih =>
      obtain ⟨k, v⟩ := d
      have hk : k ≠ a := hm (k, v) (by simp)
      rw [List.pairwise_cons] at hp
      unfold Memory.insert
      split
      · rename_i hlt
        refine List.pairwise_cons.mpr ⟨fun c hc => ?_, List.pairwise_cons.mpr hp⟩
        rcases List.mem_cons.mp hc with rfl | hc
        · exact hlt
        · exact lt_trans hlt (hp.1 c hc)
      · rename_i hlt
        refine List.pairwise_cons.mpr ⟨fun c hc => ?_, ih (fun c hc => hm c (by simp [hc])) hp.2⟩
        rcases Memory.mem_insert.mp hc with rfl | hc
        · simp only; omega
        · exact hp.1 c hc

/-- A write keeps the canonical form. -/
theorem Memory.wf_write {m : Memory} (h : Memory.wf m = true) {a : Nat} (ha : a < memorySize) (b : Byte) :
    Memory.wf (Memory.write m a b) = true := by
  unfold Memory.write
  split
  · exact Memory.wf_erase h a
  · rename_i hb
    exact Memory.wf_insert (Memory.wf_erase h a) ha hb (Memory.erase_ne m a)

/-- A run of writes inside memory keeps the canonical form. -/
theorem Memory.wf_writeBytes {bs : List Byte} {m : Memory} (h : Memory.wf m = true) {a : Nat}
    (ha : a + bs.length ≤ memorySize) : Memory.wf (Memory.writeBytes m a bs) = true := by
  induction bs generalizing m a with
  | nil => exact h
  | cons b bs ih =>
    simp only [List.length_cons] at ha
    exact ih (Memory.wf_write h (by omega) b) (by omega)

/-- What `initialize` leaves in memory is canonical. -/
theorem Memory.wf_initial (glyphs : Vector Byte 80) : Memory.wf (Memory.initial glyphs) = true :=
  Memory.wf_writeBytes rfl (by simp [memorySize])

theorem Memory.wf_tail {c : Host.Cell} {m : Memory} (h : Memory.wf (c :: m) = true) : Memory.wf m = true := by
  simp only [Memory.wf, Bool.and_eq_true] at h
  exact h.2

/-- A canonical memory reads an address its cells do not name as unlisted. -/
theorem Memory.read_of_not_mem {m : Memory} {a : Nat} (h : ∀ c ∈ m, c.1 ≠ a) :
    Memory.read m a = Memory.resetByte a := by
  induction m with
  | nil => rfl
  | cons c m ih =>
    obtain ⟨k, v⟩ := c
    simp [Memory.read, h (k, v) (by simp), ih fun c hc => h c (by simp [hc])]

/-! ### The state's memory operations -/

/-- `MemRead` after `MemWrite` (R52). -/
theorem memRead_memWrite (s : State) (a a' : Nat) (v : Byte) :
    (s.memWrite a v).memRead a' = if a % memorySize = a' % memorySize then v else s.memRead a' := by
  simp [State.memRead, State.memWrite, Memory.read_write]

/-- `MemWrite` keeps the canonical form. -/
theorem memWrite_wf {s : State} (h : Memory.wf s.mem = true) (a : Nat) (v : Byte) :
    Memory.wf (s.memWrite a v).mem = true :=
  Memory.wf_write h (Nat.mod_lt _ (by simp [memorySize])) v

/-- An effective address lies in memory (R51). -/
theorem ea_lt (s : State) (k : Nat) : s.ea k < memorySize := Nat.mod_lt _ (by simp [memorySize])

end Sys2Proof.Machine
end

