-- ==== Sys2Proof/Laws/Host.lean ====
section
/-! SUPPORT. The host's operations (60_exceptions.md R181, R183; 70_reset_and_hazards.md R190, R194). -/

namespace Sys2Proof.Machine

/-- A delivered key completes the wait (R163). -/
theorem resumeWithKey_waiting {s : State} {x : Reg} (k : Key) (h : s.wait = some x) :
    s.resumeWithKey k = (s.writeReg x (BitVec.ofNat 8 k.val)).setWait none := by
  simp [State.resumeWithKey, h]

/-- A key delivered to a ready core has no effect (R183). -/
theorem resumeWithKey_ready {s : State} (k : Key) (h : s.wait = none) : s.resumeWithKey k = s := by
  simp [State.resumeWithKey, h]

theorem loadProgram_fits {s : State} {bytes : List Byte} {start : Word} (h : start.toNat + bytes.length ≤ 4096) :
    s.loadProgram bytes start = { s with mem := Memory.writeBytes s.mem start.toNat bytes } := by
  simp [State.loadProgram, programFits, memorySize, h]

theorem loadProgram_fails {s : State} {bytes : List Byte} {start : Word} (h : 4096 < start.toNat + bytes.length) :
    s.loadProgram bytes start = s := by
  simp [State.loadProgram, programFits, memorySize, h]

/-- What `initialize` leaves at each address (R190). -/
theorem initial_read (glyphs : Vector Byte 80) (a : Nat) :
    Memory.read (Memory.initial glyphs) a = if h : a < 80 then glyphs[a] else Memory.resetByte a := by
  unfold Memory.initial
  rw [Memory.read_writeBytes]
  simp [Memory.read]

/-- An address above the glyph table reads as zero when it is not listed (R57). -/
theorem resetByte_high {a : Nat} (h : 80 ≤ a) : Memory.resetByte a = 0 := by
  have hlen : (Config.glyphsLow ++ Config.glyphsHigh).length = 80 := by decide
  simp only [Memory.resetByte]
  rw [List.getD_eq_default _ _ (by omega)]

/-- With the default glyph table `initialize` leaves nothing listed (R190). -/
theorem initial_default : Memory.initial Config.defaultGlyphs = [] := by decide

end Sys2Proof.Machine
end

