-- ==== Sys2Proof/Laws/Loops.lean ====
section
/-! SUPPORT. What the block transfers Fx55 and Fx65 and the digits of Fx33 leave, said once. -/

namespace Sys2Proof.Machine

/-- A block store changes memory only. -/
theorem storeFirst_eq (s : State) (k : Nat) : s.storeFirst k = { s with mem := (s.storeFirst k).mem } := by
  induction k with
  | zero => rfl
  | succ k ih => rw [State.storeFirst, ih]; rfl

theorem storeFirst_i (s : State) (k : Nat) : (s.storeFirst k).i = s.i := by rw [storeFirst_eq]

theorem storeFirst_ea (s : State) (k j : Nat) : (s.storeFirst k).ea j = s.ea j := by
  simp [State.ea, storeFirst_i]

theorem storeFirst_readReg (s : State) (k : Nat) (r : Reg) : (s.storeFirst k).readReg r = s.readReg r := by
  rw [storeFirst_eq]; rfl

/-- An effective address is already reduced (R51). -/
theorem ea_mod (s : State) (k : Nat) : s.ea k % memorySize = s.ea k := Nat.mod_eq_of_lt (ea_lt s k)

/-- Distinct offsets below 4096 give distinct effective addresses (R154). -/
theorem ea_inj (s : State) {j k : Nat} (hj : j < memorySize) (hk : k < memorySize) (h : s.ea j = s.ea k) :
    j = k := by
  simp only [State.ea, memorySize] at *
  omega

/-- A block store leaves register j at EA(I, j) (R154). -/
theorem storeFirst_hit (s : State) {k j : Nat} (hk : k ≤ 16) (hj : j < k) :
    (s.storeFirst k).memRead (s.ea j) = s.readReg (regAt j) := by
  induction k with
  | zero => omega
  | succ k ih =>
    rw [State.storeFirst]
    simp only [memRead_memWrite, storeFirst_ea, storeFirst_readReg, ea_mod]
    split
    · rename_i h
      rw [ea_inj s (by simp [memorySize]; omega) (by simp [memorySize]; omega) h]
    · rename_i h
      rcases Nat.lt_succ_iff_lt_or_eq.mp hj with h' | rfl
      · exact ih (by omega) h'
      · exact absurd rfl h

/-- A block store leaves every other byte (R154). -/
theorem storeFirst_other (s : State) {k a : Nat} (h : ∀ j < k, s.ea j ≠ a % memorySize) :
    (s.storeFirst k).memRead a = s.memRead a := by
  induction k with
  | zero => rfl
  | succ k ih =>
    rw [State.storeFirst]
    simp only [memRead_memWrite, storeFirst_ea, ea_mod]
    rw [if_neg (h k (by omega)), ih fun j hj => h j (by omega)]

theorem storeFirst_wf {s : State} (h : Memory.wf s.mem = true) (k : Nat) :
    Memory.wf (s.storeFirst k).mem = true := by
  induction k with
  | zero => exact h
  | succ k ih => exact memWrite_wf ih _ _

/-- A block load changes general registers only. -/
theorem loadFirst_eq (s : State) (k : Nat) : s.loadFirst k = { s with reg := (s.loadFirst k).reg } := by
  induction k with
  | zero => rfl
  | succ k ih => rw [State.loadFirst, ih]; rfl

theorem loadFirst_ea (s : State) (k j : Nat) : (s.loadFirst k).ea j = s.ea j := by rw [loadFirst_eq]; rfl

theorem loadFirst_memRead (s : State) (k a : Nat) : (s.loadFirst k).memRead a = s.memRead a := by
  rw [loadFirst_eq]; rfl

/-- A block load gives register j, for j below k, the byte at EA(I, j), and leaves the others (R155). -/
theorem loadFirst_readReg (s : State) {k : Nat} (hk : k ≤ 16) (r : Reg) :
    (s.loadFirst k).readReg r = if r.val < k then s.memRead (s.ea r.val) else s.readReg r := by
  induction k with
  | zero => rfl
  | succ k ih =>
    rw [State.loadFirst]
    simp only [readReg_writeReg, loadFirst_ea, loadFirst_memRead, ih (by omega)]
    have hv := regAt_val (show k < 16 by omega)
    by_cases h : regAt k = r
    · subst h; simp [hv]
    · have : r.val ≠ k := fun e => h (Fin.ext (by rw [hv, e]))
      simp only [h, if_false]
      split <;> split <;> first | rfl | omega

end Sys2Proof.Machine
end

