-- ==== Sys2Proof/Laws/PerInstr.lean ====
section
/-! SUPPORT. One lemma per instruction: the word the encoder makes is one that the opcode table's own masks and values
accept. -/

namespace Sys2Proof.Laws.Encoded

/-- The instruction's word matches a row of the opcode table. -/
def Statement (i : Instr) : Prop := wordWellFormed (encode i) = true

/-- A word that a listed row matches is well-formed. -/
theorem wellFormed_of_row {op : Word} (row : OpcodeRow) (h : row ∈ opcodeRows) (hm : op &&& row.mask = row.value) :
    wordWellFormed op = true :=
  List.any_eq_true.mpr ⟨row, h, by simpa [rowMatches] using hm⟩

theorem cls : Statement .cls := by unfold Statement; decide

theorem ret : Statement .ret := by unfold Statement; decide

theorem jp (nnn : Addr) : Statement (.jp nnn) :=
  wellFormed_of_row ⟨0xF000, 0x1000⟩ (by decide) (by rw [and_F000]; simp [encode]; decide)

theorem call (nnn : Addr) : Statement (.call nnn) :=
  wellFormed_of_row ⟨0xF000, 0x2000⟩ (by decide) (by rw [and_F000]; simp [encode]; decide)

theorem seImm (x : Reg) (nn : Byte) : Statement (.seImm x nn) :=
  wellFormed_of_row ⟨0xF000, 0x3000⟩ (by decide) (by rw [and_F000]; simp [encode]; decide)

theorem sneImm (x : Reg) (nn : Byte) : Statement (.sneImm x nn) :=
  wellFormed_of_row ⟨0xF000, 0x4000⟩ (by decide) (by rw [and_F000]; simp [encode]; decide)

theorem seReg (x y : Reg) : Statement (.seReg x y) :=
  wellFormed_of_row ⟨0xF00F, 0x5000⟩ (by decide) (by rw [and_F00F]; simp [encode]; decide)

theorem ldImm (x : Reg) (nn : Byte) : Statement (.ldImm x nn) :=
  wellFormed_of_row ⟨0xF000, 0x6000⟩ (by decide) (by rw [and_F000]; simp [encode]; decide)

theorem addImm (x : Reg) (nn : Byte) : Statement (.addImm x nn) :=
  wellFormed_of_row ⟨0xF000, 0x7000⟩ (by decide) (by rw [and_F000]; simp [encode]; decide)

theorem ldReg (x y : Reg) : Statement (.ldReg x y) :=
  wellFormed_of_row ⟨0xF00F, 0x8000⟩ (by decide) (by rw [and_F00F]; simp [encode]; decide)

theorem orReg (x y : Reg) : Statement (.orReg x y) :=
  wellFormed_of_row ⟨0xF00F, 0x8001⟩ (by decide) (by rw [and_F00F]; simp [encode]; decide)

theorem andReg (x y : Reg) : Statement (.andReg x y) :=
  wellFormed_of_row ⟨0xF00F, 0x8002⟩ (by decide) (by rw [and_F00F]; simp [encode]; decide)

theorem xorReg (x y : Reg) : Statement (.xorReg x y) :=
  wellFormed_of_row ⟨0xF00F, 0x8003⟩ (by decide) (by rw [and_F00F]; simp [encode]; decide)

theorem addReg (x y : Reg) : Statement (.addReg x y) :=
  wellFormed_of_row ⟨0xF00F, 0x8004⟩ (by decide) (by rw [and_F00F]; simp [encode]; decide)

theorem subReg (x y : Reg) : Statement (.subReg x y) :=
  wellFormed_of_row ⟨0xF00F, 0x8005⟩ (by decide) (by rw [and_F00F]; simp [encode]; decide)

theorem shrReg (x y : Reg) : Statement (.shrReg x y) :=
  wellFormed_of_row ⟨0xF00F, 0x8006⟩ (by decide) (by rw [and_F00F]; simp [encode]; decide)

theorem subnReg (x y : Reg) : Statement (.subnReg x y) :=
  wellFormed_of_row ⟨0xF00F, 0x8007⟩ (by decide) (by rw [and_F00F]; simp [encode]; decide)

theorem shlReg (x y : Reg) : Statement (.shlReg x y) :=
  wellFormed_of_row ⟨0xF00F, 0x800E⟩ (by decide) (by rw [and_F00F]; simp [encode]; decide)

theorem sneReg (x y : Reg) : Statement (.sneReg x y) :=
  wellFormed_of_row ⟨0xF00F, 0x9000⟩ (by decide) (by rw [and_F00F]; simp [encode]; decide)

theorem ldI (nnn : Addr) : Statement (.ldI nnn) :=
  wellFormed_of_row ⟨0xF000, 0xA000⟩ (by decide) (by rw [and_F000]; simp [encode]; decide)

theorem jpV0 (nnn : Addr) : Statement (.jpV0 nnn) :=
  wellFormed_of_row ⟨0xF000, 0xB000⟩ (by decide) (by rw [and_F000]; simp [encode]; decide)

theorem rnd (x : Reg) (nn : Byte) : Statement (.rnd x nn) :=
  wellFormed_of_row ⟨0xF000, 0xC000⟩ (by decide) (by rw [and_F000]; simp [encode]; decide)

theorem drw (x y : Reg) (n : Nibble) : Statement (.drw x y n) :=
  wellFormed_of_row ⟨0xF000, 0xD000⟩ (by decide) (by rw [and_F000]; simp [encode]; decide)

theorem skp (x : Reg) : Statement (.skp x) :=
  wellFormed_of_row ⟨0xF0FF, 0xE09E⟩ (by decide) (by rw [and_F0FF]; simp [encode]; decide)

theorem sknp (x : Reg) : Statement (.sknp x) :=
  wellFormed_of_row ⟨0xF0FF, 0xE0A1⟩ (by decide) (by rw [and_F0FF]; simp [encode]; decide)

theorem ldVxDt (x : Reg) : Statement (.ldVxDt x) :=
  wellFormed_of_row ⟨0xF0FF, 0xF007⟩ (by decide) (by rw [and_F0FF]; simp [encode]; decide)

theorem ldVxK (x : Reg) : Statement (.ldVxK x) :=
  wellFormed_of_row ⟨0xF0FF, 0xF00A⟩ (by decide) (by rw [and_F0FF]; simp [encode]; decide)

theorem ldDtVx (x : Reg) : Statement (.ldDtVx x) :=
  wellFormed_of_row ⟨0xF0FF, 0xF015⟩ (by decide) (by rw [and_F0FF]; simp [encode]; decide)

theorem ldStVx (x : Reg) : Statement (.ldStVx x) :=
  wellFormed_of_row ⟨0xF0FF, 0xF018⟩ (by decide) (by rw [and_F0FF]; simp [encode]; decide)

theorem addI (x : Reg) : Statement (.addI x) :=
  wellFormed_of_row ⟨0xF0FF, 0xF01E⟩ (by decide) (by rw [and_F0FF]; simp [encode]; decide)

theorem ldF (x : Reg) : Statement (.ldF x) :=
  wellFormed_of_row ⟨0xF0FF, 0xF029⟩ (by decide) (by rw [and_F0FF]; simp [encode]; decide)

theorem ldB (x : Reg) : Statement (.ldB x) :=
  wellFormed_of_row ⟨0xF0FF, 0xF033⟩ (by decide) (by rw [and_F0FF]; simp [encode]; decide)

theorem storeRegs (x : Reg) : Statement (.storeRegs x) :=
  wellFormed_of_row ⟨0xF0FF, 0xF055⟩ (by decide) (by rw [and_F0FF]; simp [encode]; decide)

theorem loadRegs (x : Reg) : Statement (.loadRegs x) :=
  wellFormed_of_row ⟨0xF0FF, 0xF065⟩ (by decide) (by rw [and_F0FF]; simp [encode]; decide)

end Sys2Proof.Laws.Encoded
end

