-- ==== Sys2Proof/Laws/Step.lean ====
section
/-! SUPPORT. What one step can do, said once: which call it makes, and what running a word comes to. -/

namespace Sys2Proof.Machine

/-- An outcome that is a next state. -/
theorem next_inj {s t : State} (h : (Host.Outcome.next s : Host.Outcome State Fault Refusal) = .next t) : s = t := by
  cases h; rfl

/-- A step is the host's next call. -/
theorem step_pending {s : State} {op : HostOp} {rest : List HostOp} (h : s.pending = op :: rest) :
    step s = perform op (s.setPending rest) := by
  simp [step, nextCall, h]

theorem step_free {s : State} (h : s.pending = []) : step s = stepFree s := by
  simp [step, nextCall, h]

/-- A waiting core does nothing on a `step` call (R163). -/
theorem stepCall_waiting {s : State} {x : Reg} (inp : Input) (h : s.wait = some x) : stepCall inp s = .next s := by
  simp [stepCall, h]

/-- A ready core runs the fetched word (R70). -/
theorem stepCall_ready {s : State} (inp : Input) (h : s.wait = none) :
    stepCall inp s = runWord s.fetch (s.setInput inp) := by
  simp [stepCall, h]

theorem stepFree_waiting {s : State} {x : Reg} (h : s.wait = some x) : stepFree s = .next s := by
  simp [stepFree, h]

theorem stepFree_ready {s : State} (h : s.wait = none) : stepFree s = stepCall s.freeInput s.countInput := by
  simp [stepFree, h]

/-- A word that decodes is executed past the advance (R70, R72). -/
theorem runWord_ok {op : Word} {i : Instr} (h : decode op = .ok i) (s : State) :
    runWord op s = exec i s.advancePc := by
  simp [runWord, h]

/-- A word that does not decode is reported (R76). -/
theorem runWord_unknown {op : Word} {e : Reject} (h : decode op = .error e) (s : State) :
    runWord op s = .next (s.advancePc.reportUnknown op) := by
  simp [runWord, h]

/-- The report names the fetch address: the advance is undone exactly, mod 65536 (R171). -/
theorem fetchPc_advancePc (s : State) : s.advancePc.fetchPc = s.pc := by
  simp [State.fetchPc]

/-- A step's call, said once: one of the host's queued calls, or a `step` with a free input, which a waiting core
ignores. -/
theorem step_cases (s : State) :
    (∃ op rest, s.pending = op :: rest ∧ step s = perform op (s.setPending rest)) ∨
    (s.pending = [] ∧ (∃ x, s.wait = some x) ∧ step s = .next s) ∨
    (s.pending = [] ∧ s.wait = none ∧ step s = runWord s.fetch (s.countInput.setInput s.freeInput)) := by
  cases hp : s.pending with
  | cons op rest => exact .inl ⟨op, rest, rfl, step_pending hp⟩
  | nil =>
    cases hw : s.wait with
    | some x => exact .inr (.inl ⟨rfl, ⟨x, rfl⟩, (step_free hp).trans (stepFree_waiting hw)⟩)
    | none =>
      refine .inr (.inr ⟨rfl, rfl, ?_⟩)
      rw [step_free hp, stepFree_ready hw, stepCall_ready _ (by simpa using hw)]
      rfl

/-- A placed word is the next one fetched (R71). -/
theorem fetch_placeWord (s : State) (op : Word) : (s.placeWord op).fetch = op := by
  unfold State.fetch State.placeWord
  simp only [memRead_setPending, memRead_setWait, setPending_pc, setWait_pc, memWrite_pc, memRead_memWrite]
  have h : (s.pc.toNat + 1) % memorySize ≠ s.pc.toNat % memorySize := by
    simp only [memorySize]; omega
  simp only [h, if_false, if_true]
  exact wordOfBytes_bytes op

end Sys2Proof.Machine
end

