-- ==== Sys2Proof/Tests/Slice0.lean ====
section
/-! SUPPORT. Tests: the words of the opcode table, the spec's own vectors (95_test_vectors.md), one step each, and a
witness for the hypotheses of every statement. -/

namespace Sys2Proof.Tests

open Sys2Proof.Machine

/-! ### Helpers -/

/-- The state a word's step leaves, or the state itself where the step does not complete. -/
def after (s : State) : State :=
  match step s with
  | .next t => t
  | .fault _ => s
  | .refused _ => s

/-- Reset with a word at the start address, where the vectors place it. -/
def at200 (op : Nat) : State := State.reset.withFetchWord 16 op

/-- The vectors' way to say which registers hold what. -/
def setRegs (s : State) (rs : List (Reg × Byte)) : State := rs.foldl (fun t r => t.writeReg r.1 r.2) s

/-- A state with these registers, stepped over the word. -/
def run (op : Nat) (rs : List (Reg × Byte)) : State := after (setRegs (at200 op) rs)

/-- Bytes placed in memory. -/
def setMem (s : State) (a : Nat) (bs : List Byte) : State := { s with mem := Memory.writeBytes s.mem a bs }

/-- The three bytes at an address. -/
def bytes3 (s : State) (a : Nat) : List Byte := [s.memRead a, s.memRead (a + 1), s.memRead (a + 2)]

/-- An input with one key pressed. -/
def keyInput (k : Key) : Input := { Input.idle with keys := Input.idle.keys.set k true }

/-- A state whose next call is a step with this input. -/
def withInput (s : State) (inp : Input) : State := s.setPending [.step inp]

/-! ### Decoding: one word of every row, written from its encoding in spec/opcode_table.json -/

theorem test_decode_flow :
    decode 0x00E0 = .ok .cls ∧ decode 0x00EE = .ok .ret ∧ decode 0x1234 = .ok (.jp 0x234) ∧
    decode 0x2300 = .ok (.call 0x300) ∧ decode 0xBFFF = .ok (.jpV0 0xFFF) := by decide

theorem test_decode_skip :
    decode 0x31A5 = .ok (.seImm 1 0xA5) ∧ decode 0x42A5 = .ok (.sneImm 2 0xA5) ∧
    decode 0x5340 = .ok (.seReg 3 4) ∧ decode 0x9F10 = .ok (.sneReg 15 1) ∧
    decode 0xE49E = .ok (.skp 4) ∧ decode 0xE4A1 = .ok (.sknp 4) := by decide

theorem test_decode_alu :
    decode 0x6F12 = .ok (.ldImm 15 0x12) ∧ decode 0x71FF = .ok (.addImm 1 0xFF) ∧
    decode 0x8120 = .ok (.ldReg 1 2) ∧ decode 0x8121 = .ok (.orReg 1 2) ∧ decode 0x8122 = .ok (.andReg 1 2) ∧
    decode 0x8123 = .ok (.xorReg 1 2) ∧ decode 0x8124 = .ok (.addReg 1 2) ∧ decode 0x8125 = .ok (.subReg 1 2) := by
  decide

theorem test_decode_alu_rest :
    decode 0x8126 = .ok (.shrReg 1 2) ∧ decode 0x8127 = .ok (.subnReg 1 2) ∧ decode 0x812E = .ok (.shlReg 1 2) ∧
    decode 0xC30F = .ok (.rnd 3 0x0F) ∧ decode 0xD125 = .ok (.drw 1 2 5) ∧ decode 0xA400 = .ok (.ldI 0x400) := by
  decide

theorem test_decode_groupF :
    decode 0xF307 = .ok (.ldVxDt 3) ∧ decode 0xF30A = .ok (.ldVxK 3) ∧ decode 0xF215 = .ok (.ldDtVx 2) ∧
    decode 0xF218 = .ok (.ldStVx 2) ∧ decode 0xF51E = .ok (.addI 5) ∧ decode 0xF029 = .ok (.ldF 0) ∧
    decode 0xFA33 = .ok (.ldB 10) ∧ decode 0xF255 = .ok (.storeRegs 2) ∧ decode 0xF265 = .ok (.loadRegs 2) := by
  decide

/-- The syntax of 30_encoding.md R79, from the programs P1, P2 and P3. -/
theorem test_assembly :
    assembly (.seImm 1 0) = "SE V1, 0x00" ∧ assembly (.call 0x300) = "CALL 0x300" ∧
    assembly (.drw 1 2 5) = "DRW V1, V2, 5" ∧ assemblyData 0xFFFF = "DW 0xFFFF" := by decide

/-- A list of bytes is read big-endian, and one byte is too short. -/
theorem test_decode_bytes :
    decodeBytes [0x60, 0x05, 0x61] = .ok (.ldImm 0 5, [0x61]) ∧ decodeBytes [0x60] = .error .truncated ∧
    decodeTableWord 16 0x6005 = some (.ldImm 0 5) ∧ decodeTableWord 16 0x5341 = none := by decide

/-! ### WellFormed: an ill-formed word for each reserved region (R78), which the check refuses -/

theorem test_wellFormed_refuses :
    wordWellFormed 0x0000 = false ∧ wordWellFormed 0x01E0 = false ∧ wordWellFormed 0x5341 = false ∧
    wordWellFormed 0x934F = false ∧ wordWellFormed 0xE49F = false ∧ wordWellFormed 0xFFFF = false := by decide

theorem test_wellFormed_refuses_group8 :
    wordWellFormed 0x8128 = false ∧ wordWellFormed 0x8129 = false ∧ wordWellFormed 0x812A = false ∧
    wordWellFormed 0x812B = false ∧ wordWellFormed 0x812C = false ∧ wordWellFormed 0x812D = false ∧
    wordWellFormed 0x812F = false := by decide

theorem test_wellFormed_accepts : wordWellFormed 0x00E0 = true ∧ wordWellFormed 0x8AB7 = true := by decide

/-! ### The cycle (vectors U1, U3, U5, U7, K12) -/

theorem test_unknown_U1 :
    (after (at200 0x0000)).reports = [⟨.unknownInstruction, 0x0000, 0x200⟩] ∧ (after (at200 0x0000)).pc = 0x202 := by
  decide

theorem test_unknown_U3 : (after (at200 0x01E0)).reports = [⟨.unknownInstruction, 0x01E0, 0x200⟩] := by decide

/-- U5: the fetch wraps from 0xFFF to 0x000, which holds the default glyph byte F0. -/
theorem test_fetch_U5 :
    (after ((setMem State.reset 0xFFF [0x60]).setPc 0xFFF)).readReg 0 = 0xF0 ∧
    (after ((setMem State.reset 0xFFF [0x60]).setPc 0xFFF)).pc = 0x1001 := by decide

/-- U7: the advance wraps mod 65536 before the jump. -/
theorem test_fetch_U7 : (after ((setMem State.reset 0xFFF [0x12]).setPc 0xFFFF)).pc = 0x2F0 := by decide

/-! ### Control transfer (F1, F2, F3, F6, F7, F9, F10) -/

theorem test_ret_F1 : (run 0x00EE []).reports = [⟨.stackUnderflow, 0x00EE, 0x200⟩] ∧ (run 0x00EE []).pc = 0x202 := by
  decide

theorem test_ret_F2 : (after ((at200 0x00EE).push 0x204 (by decide))).pc = 0x204 ∧
    (after ((at200 0x00EE).push 0x204 (by decide))).sp = 0 := by decide

theorem test_jp_F3 : (run 0x1234 []).pc = 0x234 := by decide

theorem test_call_F6 : (run 0x2300 []).stack[0] = 0x202 ∧ (run 0x2300 []).sp = 1 ∧ (run 0x2300 []).pc = 0x300 := by
  decide

theorem test_call_F7 :
    (after { at200 0x2300 with sp := 16 }).reports = [⟨.stackOverflow, 0x2300, 0x200⟩] ∧
    (after { at200 0x2300 with sp := 16 }).pc = 0x202 := by decide

theorem test_jpV0_F10 : (run 0xBFFF [(0, 0xFF)]).pc = 0x10FE := by decide

theorem test_jpV0_F12 : (run 0xB300 [(0, 0x01), (3, 0x50)]).pc = 0x301 := by decide

/-! ### Conditional skips (S1, S2, S3, S4, S5, S6, S9, S10) -/

theorem test_seImm_S1_S2 : (run 0x3100 [(1, 0)]).pc = 0x204 ∧ (run 0x3100 [(1, 1)]).pc = 0x202 := by decide

theorem test_sneImm_S3_S4 : (run 0x4207 [(2, 7)]).pc = 0x202 ∧ (run 0x4208 [(2, 7)]).pc = 0x204 := by decide

theorem test_seReg_S5_S6 :
    (run 0x5340 [(3, 0x10), (4, 0x10)]).pc = 0x204 ∧ (run 0x5340 [(3, 0x10), (4, 0x11)]).pc = 0x202 := by decide

theorem test_sneReg_S9_S10 :
    (run 0x9340 [(3, 0x10), (4, 0x11)]).pc = 0x204 ∧ (run 0x9550 [(5, 0x10)]).pc = 0x202 := by decide

/-! ### Register loads and arithmetic (rows A1 to A47) -/

theorem test_ldImm_A2 : (run 0x6F12 [(15, 0x33)]).readReg 15 = 0x12 := by decide

theorem test_addImm_A5 :
    (run 0x7101 [(1, 0xFF), (15, 0x33)]).readReg 1 = 0 ∧ (run 0x7101 [(1, 0xFF), (15, 0x33)]).readReg 15 = 0x33 := by
  decide

theorem test_ldReg_A7 : (run 0x8120 [(2, 0x42)]).readReg 1 = 0x42 := by decide

theorem test_orReg_A8 :
    (run 0x8121 [(1, 0xF0), (2, 0x0F), (15, 0x55)]).readReg 1 = 0xFF ∧
    (run 0x8121 [(1, 0xF0), (2, 0x0F), (15, 0x55)]).readReg 15 = 0x55 := by decide

theorem test_andReg_A9 : (run 0x8122 [(1, 0xF0), (2, 0x3C)]).readReg 1 = 0x30 := by decide

theorem test_xorReg_A10 : (run 0x8123 [(1, 0xF0), (2, 0x3C)]).readReg 1 = 0xCC := by decide

theorem test_addReg_A14 : (run 0x8014 [(0, 0x80), (1, 0x80)]).readReg 0 = 0 ∧
    (run 0x8014 [(0, 0x80), (1, 0x80)]).readReg 15 = 1 := by decide

theorem test_addReg_A16_A18 : (run 0x8F14 [(15, 0xFF), (1, 2)]).readReg 15 = 1 ∧
    (run 0x80F4 [(0, 0x10), (15, 0xF0)]).readReg 0 = 0 := by decide

theorem test_subReg_A21 : (run 0x8015 [(0, 3), (1, 5)]).readReg 0 = 0xFE ∧
    (run 0x8015 [(0, 3), (1, 5)]).readReg 15 = 0 := by decide

theorem test_subReg_A24_A26 : (run 0x8F15 [(15, 5), (1, 3)]).readReg 15 = 0xFE ∧
    (run 0x80F5 [(0, 5), (15, 3)]).readReg 0 = 4 := by decide

theorem test_shrReg_A31 : (run 0x8236 [(2, 1), (3, 0xFF)]).readReg 2 = 0 ∧
    (run 0x8236 [(2, 1), (3, 0xFF)]).readReg 15 = 1 := by decide

theorem test_shrReg_A33 : (run 0x8F06 [(15, 0xFF)]).readReg 15 = 0 := by decide

theorem test_subnReg_A35 : (run 0x8017 [(0, 5), (1, 3)]).readReg 0 = 0xFE ∧
    (run 0x8017 [(0, 5), (1, 3)]).readReg 15 = 0 := by decide

theorem test_subnReg_A36_A37 : (run 0x8F17 [(15, 3), (1, 5)]).readReg 15 = 4 ∧
    (run 0x80F7 [(0, 5), (15, 9)]).readReg 0 = 0xFC := by decide

theorem test_shlReg_A40 : (run 0x820E [(2, 0x81)]).readReg 2 = 2 ∧ (run 0x820E [(2, 0x81)]).readReg 15 = 1 := by decide

theorem test_shlReg_A42 : (run 0x8F0E [(15, 0x80)]).readReg 15 = 2 := by decide

theorem test_rnd_A45 :
    (after (withInput (at200 0xC30F) { Input.idle with randomByte := 0xAB })).readReg 3 = 0x0B := by decide

/-! ### Address register and memory (M1, M3, M4, M8, M17, M19, M21, M22, M24) -/

theorem test_ldI_M1 : (run 0xA400 []).i = 0x400 := by decide

theorem test_addI_M3_M4 : (after ((setRegs (at200 0xF51E) [(5, 1)]).setI 0x0FFF)).i = 0x1000 ∧
    (after ((setRegs (at200 0xF51E) [(5, 2)]).setI 0xFFFF)).i = 1 := by decide

theorem test_ldF_M8 : (run 0xF029 [(0, 0xFF)]).i = 0x04FB := by decide

theorem test_ldB_M17 : bytes3 (after ((setRegs (at200 0xF033) [(0, 255)]).setI 0x400)) 0x400 = [2, 5, 5] := by decide

theorem test_ldB_M19 : bytes3 (after ((setRegs (at200 0xF033) [(0, 123)]).setI 0x1FFF)) 0xFFF = [1, 2, 3] := by decide

theorem test_storeRegs_M21 :
    bytes3 (after ((setRegs (at200 0xF055) [(0, 0xAA), (1, 0xBB)]).setI 0x500)) 0x500 = [0xAA, 0, 0] := by decide

theorem test_storeRegs_M22 :
    bytes3 (after ((setRegs (at200 0xF355) [(0, 1), (1, 2), (2, 3), (3, 4)]).setI 0xFFE)) 0xFFF = [2, 3, 4] := by decide

theorem test_loadRegs_M23 :
    (after ((setMem (at200 0xF265) 0x400 [1, 2, 3]).setI 0x400)).readReg 2 = 3 ∧
    (after ((setMem (at200 0xF265) 0x400 [1, 2, 3]).setI 0x400)).i = 0x400 := by decide

theorem test_loadRegs_M24 : (run 0xFF65 []).readReg 7 = 0x20 ∧ (run 0xFF65 []).readReg 15 = 0xF0 := by
  simp only [run, setRegs, List.foldl]
  decide

/-! ### Display (D1, D3, D6, D7, D9) -/

theorem test_drw_D1 :
    let t := after ((setRegs (setMem (at200 0xD121) 0x300 [0xC0]) [(1, 63)]).setI 0x300)
    t.disp = (Display.clear.setCell 63 0 true).setCell 0 0 true ∧ t.readReg 15 = 0 := by decide

theorem test_drw_D7 :
    let s := (setMem (at200 0xD012) 0x300 [0x80, 0x80]).setI 0x300
    let t := after (s.setDisp (Display.clear.setCell 0 0 true))
    t.disp = Display.clear.setCell 0 1 true ∧ t.readReg 15 = 1 := by decide

theorem test_cls_D9 : (after ((at200 0x00E0).setDisp (Display.clear.setCell 5 5 true))).disp = Display.clear := by decide

/-! ### Keys, timers and the host (K1 to K18, I2, I3, I5) -/

theorem test_skp_K1_K2 : (after (withInput (setRegs (at200 0xE49E) [(4, 7)]) (keyInput 7))).pc = 0x204 ∧
    (after (withInput (setRegs (at200 0xE49E) [(4, 7)]) Input.idle)).pc = 0x202 := by decide

theorem test_skp_K5_K7 :
    let s := withInput (setRegs (at200 0xE49E) [(4, 0x13)]) (keyInput 3)
    (after s).pc = 0x204 ∧
    (after { s with config := { s.config with keyIndexMode := .invalidNotPressed } }).pc = 0x202 := by decide

theorem test_sknp_K3_K4 : (after (withInput (setRegs (at200 0xE4A1) [(4, 7)]) Input.idle)).pc = 0x204 ∧
    (after (withInput (setRegs (at200 0xE4A1) [(4, 7)]) (keyInput 7))).pc = 0x202 := by decide

theorem test_ldVxDt_K10 : (after ((at200 0xF307).setDt 0x3C)).readReg 3 = 0x3C := by decide

theorem test_ldVxK_K11 : (run 0xF30A []).wait = some 3 ∧ (run 0xF30A []).pc = 0x202 := by decide

theorem test_wait_K12 : after (State.reset.setWait (some 3)) = State.reset.setWait (some 3) := by decide

theorem test_resume_K13 :
    let t := after ((State.reset.setWait (some 3)).setPending [.resumeWithKey 0xB])
    t.readReg 3 = 0x0B ∧ t.wait = none ∧ t.pc = 0x200 := by decide

theorem test_ldDtVx_K14 : (run 0xF215 [(2, 0x3C)]).dt = 0x3C := by decide

theorem test_ldStVx_K15 : (run 0xF218 [(2, 8)]).st = 8 := by decide

theorem test_tick_K17_K18 :
    (after ((State.reset.setDt 2).setPending [.tickTimers])).dt = 1 ∧
    (after ((State.reset.setSt 1).setPending [.tickTimers])).st = 0 ∧
    (after (State.reset.setPending [.tickTimers])).dt = 0 := by decide

theorem test_load_I4_I5 : programFits [] 0x1000 = true ∧ programFits [0] 0xFFFF = false := by decide

/-! ### Every statement's hypotheses are met -/

theorem witness_EncodeDecodeRoundTrip : decode 0x8F15 = .ok (.subReg 15 1) := by decide

theorem witness_OpcodeRowsDisjoint :
    opcodeRows[33]? = some ⟨0xF0FF, 0xF065⟩ ∧ rowMatches ⟨0xF0FF, 0xF065⟩ 0xFF65 = true := by decide

theorem witness_FetchIsBigEndian : (State.reset.setPc 0x1FFF).pc.toNat % 4096 = 0xFFF := by decide

theorem witness_StepRunsDecodedInstruction :
    (at200 0x6005).wait = none ∧ decode (at200 0x6005).fetch = .ok (.ldImm 0 5) ∧ (at200 0x6005).pending = [] ∧
    (withInput (at200 0x6005) Input.idle).wait = none ∧
    decode (withInput (at200 0x6005) Input.idle).fetch = .ok (.ldImm 0 5) ∧
    (withInput (at200 0x6005) Input.idle).pending = .step Input.idle :: [] := by decide

theorem witness_UnknownWordIsReported :
    State.reset.wait = none ∧ decode State.reset.fetch = .error .group0 ∧ State.reset.pending = [] ∧
    (withInput State.reset Input.idle).wait = none ∧
    decode (withInput State.reset Input.idle).fetch = .error .group0 ∧
    (withInput State.reset Input.idle).pending = .step Input.idle :: [] := by decide

theorem witness_WaitingStepDoesNothing :
    (State.reset.setWait (some 15)).wait = some 15 ∧ (State.reset.setWait (some 15)).pending = [] ∧
    (withInput (State.reset.setWait (some 0)) Input.idle).wait = some 0 ∧
    (withInput (State.reset.setWait (some 0)) Input.idle).pending = .step Input.idle :: [] := by decide

theorem witness_RetReturnsOrReports :
    ({ State.reset with sp := 1 } : State).sp.val = 0 + 1 ∧ ({ State.reset with sp := 16 } : State).sp.val = 15 + 1 ∧
    State.reset.sp.val = 0 := by decide

theorem witness_CallPushesOrReports :
    State.reset.sp.val < 16 ∧ ({ State.reset with sp := 15 } : State).sp.val < 16 ∧
    ({ State.reset with sp := 16 } : State).sp.val = 16 := by decide

theorem witness_CallThenReturnResumes :
    ∃ t, exec (.call 0x300) State.reset = .next t ∧ (t.setPc 0x400).sp = t.sp ∧
      (t.setPc 0x400).stack[State.reset.sp.val] = t.stack[State.reset.sp.val] := ⟨_, rfl, rfl, rfl⟩

/-- The groups and subcodes the encoding clauses of groups 1 to D name. -/
theorem witness_encoding_groups :
    fieldGroup 0x1234 = 0x1 ∧ fieldGroup 0x2300 = 0x2 ∧ fieldGroup 0x3100 = 0x3 ∧ fieldGroup 0x4207 = 0x4 ∧
    (fieldGroup 0x5340 = 0x5 ∧ fieldN 0x5340 = 0) ∧ (fieldGroup 0x5341 = 0x5 ∧ fieldN 0x5341 ≠ 0) ∧
    fieldGroup 0x6005 = 0x6 ∧ fieldGroup 0x71FF = 0x7 ∧ (fieldGroup 0x9340 = 0x9 ∧ fieldN 0x9340 = 0) ∧
    (fieldGroup 0x934F = 0x9 ∧ fieldN 0x934F ≠ 0) ∧ fieldGroup 0xA400 = 0xA ∧ fieldGroup 0xB208 = 0xB ∧
    fieldGroup 0xC30F = 0xC ∧ fieldGroup 0xD121 = 0xD := by decide

/-- The subcodes the encoding clauses of group 8 name. -/
theorem witness_encoding_group8 :
    fieldGroup 0x8120 = 0x8 ∧ fieldN 0x8120 = 0x0 ∧ fieldN 0x8121 = 0x1 ∧ fieldN 0x8122 = 0x2 ∧ fieldN 0x8123 = 0x3 ∧
    fieldN 0x8124 = 0x4 ∧ fieldN 0x8125 = 0x5 ∧ fieldN 0x8126 = 0x6 ∧ fieldN 0x8127 = 0x7 ∧ fieldN 0x812E = 0xE := by
  decide

/-- The subcodes the encoding clauses of groups E and F name. -/
theorem witness_encoding_groupsEF :
    fieldGroup 0xE49E = 0xE ∧ fieldNN 0xE49E = 0x9E ∧ fieldGroup 0xE4A1 = 0xE ∧ fieldNN 0xE4A1 = 0xA1 ∧
    fieldGroup 0xF307 = 0xF ∧ fieldNN 0xF307 = 0x07 ∧ fieldNN 0xF30A = 0x0A ∧ fieldNN 0xF215 = 0x15 ∧
    fieldNN 0xF218 = 0x18 ∧ fieldNN 0xF51E = 0x1E ∧ fieldNN 0xF029 = 0x29 ∧ fieldNN 0xFA33 = 0x33 ∧
    fieldNN 0xF255 = 0x55 ∧ fieldNN 0xF265 = 0x65 := by decide

/-- Operands on both sides of each VF clause of the arithmetic statements and of the drawing statements. -/
theorem witness_vF_clauses : (0 : Reg) ≠ vF ∧ (14 : Reg) ≠ vF ∧ (15 : Reg) = vF := by decide

/-- Sums and differences on both sides of each flag's boundary. -/
theorem witness_flag_clauses :
    carryFlag 255 = 0 ∧ carryFlag 256 = 1 ∧ notBorrowFlag 7 7 = 1 ∧ notBorrowFlag 6 7 = 0 := by decide

theorem witness_RegistersStored : (0 : Reg) ≤ 0 ∧ (15 : Reg) ≤ 15 ∧ ¬ (1 : Reg) ≤ 0 := by decide

theorem witness_StoreThenLoadRestores :
    ∃ t, exec (.storeRegs 3) (State.reset.setI 0x500) = .next t ∧ (setRegs t [(0, 9)]).i = t.i ∧
      ∀ r : Reg, r ≤ 3 → (setRegs t [(0, 9)]).memRead (t.ea r.val) = t.memRead (t.ea r.val) :=
  ⟨_, rfl, rfl, fun _ _ => rfl⟩

/-- The stored word crosses the top of memory. -/
theorem witness_StoredWordIsFetchedNext :
    (1 : Reg).val = (0 : Reg).val + 1 ∧ (1 : Reg) ≤ 1 ∧
    ((State.reset.setI 0xFFF).setPc 0x0FFF).ea (0 : Reg).val = ((State.reset.setI 0xFFF).setPc 0x0FFF).pc.toNat % 4096 := by
  decide

/-- A state of the other key mode. -/
def strictKeys (v : Byte) : State :=
  { setRegs State.reset [(4, v)] with config := { Config.default with keyIndexMode := .invalidNotPressed } }

theorem witness_SkipOnKey_mask :
    (setRegs State.reset [(4, 0x13)]).config.keyIndexMode = .mask ∧
    ∃ k : Key, k.val = ((setRegs State.reset [(4, 0x13)]).readReg 4).toNat % 16 ∧
      false = (setRegs State.reset [(4, 0x13)]).input.keys[k] := by decide

theorem witness_SkipOnKey_strict :
    (strictKeys 0x0F).config.keyIndexMode = .invalidNotPressed ∧
    (∃ k : Key, k.val = ((strictKeys 0x0F).readReg 4).toNat ∧ false = (strictKeys 0x0F).input.keys[k]) ∧
    15 < ((strictKeys 0x10).readReg 4).toNat := by decide

theorem witness_KeyWaitIssuesAndCompletes :
    let s := State.reset.setWait (some 3)
    s.wait = some 3 ∧ (withInput s Input.idle).wait = some 3 ∧
    (withInput s Input.idle).pending = .step Input.idle :: [] ∧
    (s.setPending [.resumeWithKey 0xB]).wait = some 3 ∧
    (s.setPending [.resumeWithKey 0xB]).pending = .resumeWithKey 0xB :: [] := by decide

/-- A cell the sprite covers, one it does not, and a covered cell that is on. -/
theorem witness_DrawSprite :
    let s := (setMem State.reset 0x300 [0x80]).setI 0x300
    spriteCovers s 0 1 1 0 0 ∧ ¬ spriteCovers s 0 1 0 0 0 ∧
    (s.setDisp (Display.clear.setCell 0 0 true)).disp.cell 0 0 = true :=
  ⟨⟨0, by decide, 0, by decide, by decide, by decide, by decide⟩, fun ⟨_, h, _⟩ => by simp at h, by decide⟩

theorem witness_TickCountsDown : (State.reset.setPending [.tickTimers]).pending = .tickTimers :: [] := by decide

theorem witness_InitializeResetsState :
    (State.reset.setPending [.init 0x300]).pending = .init 0x300 :: [] ∧ (79 < 80) ∧ (80 ≤ 80 ∧ 80 < 4096) := by decide

theorem witness_LoadProgramCopiesOrFails :
    (State.reset.setPending [.loadProgram [1, 2] 0xFFE]).pending = .loadProgram [1, 2] 0xFFE :: [] ∧
    (0xFFE : Word).toNat + ([1, 2] : List Byte).length ≤ 4096 ∧
    4096 < (0xFFE : Word).toNat + ([1, 2, 3] : List Byte).length := by decide

theorem witness_HostQueriesChangeNothing :
    (State.reset.setPending [.readDisplay]).pending = .readDisplay :: [] ∧
    (State.reset.setPending [.isAwaitingKey]).pending = .isAwaitingKey :: [] ∧
    (State.reset.setPending [.resumeWithKey 1]).pending = .resumeWithKey 1 :: [] ∧
    (State.reset.setPending [.resumeWithKey 1]).wait = none := by decide

theorem witness_ResetIsInitialize : (State.reset.setPc 0x300).config = Config.default := rfl

theorem witness_StepKeepsInvariant : MachineInv State.reset ∧ ∃ t, step State.reset = .next t :=
  ⟨⟨rfl, fun _ h => by simp [State.reset] at h⟩, _, rfl⟩

theorem witness_CanonicalMemoryExtensional :
    (Memory.wf [(0x200, 1)] = true ∧ ∀ a, Memory.read [(0x200, 1)] a = Memory.read [(0x200, 1)] a) ∧
    Memory.wf [(0, 0xF0)] = false ∧ Memory.wf [(0x201, 1), (0x200, 1)] = false :=
  ⟨⟨by decide, fun _ => rfl⟩, by decide, by decide⟩

/-- A step that reports, for the statements about reports. -/
theorem witness_ReportIsPrecise :
    ∃ t, step State.reset = .next t ∧ t.reports ≠ State.reset.reports := ⟨_, rfl, by decide⟩

/-- A step that reports nothing. -/
theorem witness_AtMostOneReport :
    ∃ t, step (at200 0x6005) = .next t ∧ t.reports = (at200 0x6005).reports := ⟨_, rfl, by decide⟩

theorem witness_OnlyFlowAndSkipsMovePc :
    (∃ t, exec (.jp 0x300) State.reset = .next t ∧ t.pc ≠ State.reset.pc) ∧
    ∃ t, exec (.seImm 0 0) State.reset = .next t ∧ t.pc ≠ State.reset.pc := by
  refine ⟨⟨_, rfl, by decide⟩, ⟨_, rfl, by decide⟩⟩

/-- An instruction that writes none of what a whole-machine rule covers, one that writes a register, one that does
not read one. -/
theorem witness_writers_and_readers :
    (∃ t, exec (.ldImm 1 5) State.reset = .next t) ∧ ¬ writesReg (.ldImm 1 5) 2 ∧ writesReg (.ldImm 1 5) 1 ∧
    ¬ readsReg (.ldImm 1 5) 1 ∧ ¬ writesI (.ldImm 1 5) ∧ ¬ writesStack (.ldImm 1 5) ∧ ¬ writesDisplay (.ldImm 1 5) ∧
    ¬ writesMemory (.ldImm 1 5) ∧ ¬ writesDt (.ldImm 1 5) ∧ ¬ writesSt (.ldImm 1 5) ∧ ¬ writesWait (.ldImm 1 5) ∧
    ¬ readsInput (.ldImm 1 5) := by
  refine ⟨⟨_, rfl⟩, ?_⟩
  simp [writesReg, readsReg, writesI, writesStack, writesDisplay, writesMemory, writesDt, writesSt, writesWait,
    readsInput]

theorem witness_WaitEndsOnlyByHost :
    let s := (State.reset.setWait (some 3)).setPending [.tickTimers]
    s.wait = some 3 ∧ (∃ t, step s = .next t) ∧ (∀ k rest, s.pending ≠ .resumeWithKey k :: rest) ∧
    ∀ start rest, s.pending ≠ .init start :: rest := by
  refine ⟨rfl, ⟨_, rfl⟩, fun _ _ h => by simp at h, fun _ _ h => by simp at h⟩

/-- A wait during which the program is loaded anew: the call is no tick. -/
theorem witness_WaitEndsOnlyByHost_load :
    let s := (State.reset.setWait (some 0)).setPending [.loadProgram [1] 0x200]
    s.wait = some 0 ∧ (∃ t, step s = .next t ∧ t.mem ≠ s.mem) ∧ ∀ rest, s.pending ≠ .tickTimers :: rest := by
  refine ⟨rfl, ⟨_, rfl, by decide⟩, fun _ h => by simp at h⟩

end Sys2Proof.Tests
end

section
/-! The parameters of R6 are fixed: no instruction and no call of the host writes them. -/

namespace Sys2Proof.Machine

/-! ### What an instruction leaves of the model's own fields -/

/-- From `s` to `t` the parameters and the host's fields are as before: they are no part of the record of R20, so
running an instruction does not reach them (log entries 4, 5 and 6). -/
structure HostFrame (s t : State) : Prop where
  config      : t.config = s.config
  input       : t.input = s.input
  pending     : t.pending = s.pending
  inputsTaken : t.inputsTaken = s.inputsTaken

theorem HostFrame.trans {s t u : State} (h : HostFrame s t) (h' : HostFrame t u) : HostFrame s u :=
  ⟨h'.config.trans h.config, h'.input.trans h.input, h'.pending.trans h.pending,
    h'.inputsTaken.trans h.inputsTaken⟩

theorem hostFrame_writeReg (s : State) (x : Reg) (v : Byte) : HostFrame s (s.writeReg x v) := ⟨rfl, rfl, rfl, rfl⟩

theorem hostFrame_setPc (s : State) (v : Word) : HostFrame s (s.setPc v) := ⟨rfl, rfl, rfl, rfl⟩

theorem hostFrame_report (s : State) (kind : ReportKind) (op : Word) : HostFrame s (s.report kind op) :=
  ⟨rfl, rfl, rfl, rfl⟩

theorem hostFrame_skipIf (s : State) (c : Bool) : HostFrame s (s.skipIf c) :=
  skipIf_eq s c ▸ hostFrame_setPc s _

theorem hostFrame_storeFirst (s : State) (k : Nat) : HostFrame s (s.storeFirst k) := by
  rw [storeFirst_eq]; exact ⟨rfl, rfl, rfl, rfl⟩

theorem hostFrame_loadFirst (s : State) (k : Nat) : HostFrame s (s.loadFirst k) := by
  rw [loadFirst_eq]; exact ⟨rfl, rfl, rfl, rfl⟩

theorem DrawFrame.hostFrame {s t : State} (h : DrawFrame s t) : HostFrame s t := by
  rw [h.rest]; exact ⟨rfl, rfl, rfl, rfl⟩

theorem execRet_hostFrame {s t : State} (h : execRet s = .next t) : HostFrame s t := by
  rcases Nat.eq_zero_or_pos s.sp.val with hsp | hsp
  · obtain rfl := next_inj ((execRet_empty hsp).symm.trans h)
    exact hostFrame_report s _ _
  · obtain rfl := next_inj ((execRet_held hsp).symm.trans h)
    exact ⟨rfl, rfl, rfl, rfl⟩

theorem execCall_hostFrame {nnn : Addr} {s t : State} (h : execCall nnn s = .next t) : HostFrame s t := by
  rcases Nat.lt_or_ge s.sp.val 16 with hsp | hsp
  · obtain rfl := next_inj ((execCall_room nnn hsp).symm.trans h)
    exact ⟨rfl, rfl, rfl, rfl⟩
  · obtain rfl := next_inj ((execCall_full nnn (by omega)).symm.trans h)
    exact hostFrame_report s _ _

/-- An instruction keeps the parameters and the host's fields. Its meaning is a chain of updates of R20's record; the
cases apart are those that branch (on the stack depth, or to skip) and those that loop (Dxyn, Fx55, Fx65). -/
theorem exec_hostFrame {i : Instr} {s t : State} (h : exec i s = .next t) : HostFrame s t := by
  cases i
  case ret => exact execRet_hostFrame h
  case call => exact execCall_hostFrame h
  case drw x y n =>
    obtain rfl := next_inj h
    exact (hostFrame_writeReg s vF _).trans (drawRows_frame _ _ _ _).hostFrame
  all_goals obtain rfl := next_inj h
  case seImm | sneImm | seReg | sneReg | skp | sknp => exact hostFrame_skipIf s _
  case storeRegs => exact hostFrame_storeFirst s _
  case loadRegs => exact hostFrame_loadFirst s _
  all_goals exact ⟨rfl, rfl, rfl, rfl⟩

/-- Running a word, known or unknown, keeps the parameters and the host's fields (R70, R76). -/
theorem runWord_hostFrame {op : Word} {s t : State} (h : runWord op s = .next t) : HostFrame s t := by
  cases hd : decode op with
  | ok i => exact (hostFrame_setPc s _).trans (exec_hostFrame ((runWord_ok hd s).symm.trans h))
  | error e =>
    obtain rfl := next_inj ((runWord_unknown hd s).symm.trans h)
    exact (hostFrame_setPc s _).trans (hostFrame_report _ _ _)

/-! ### What a call of the host leaves of the parameters -/

theorem stepCall_config {inp : Input} {s t : State} (h : stepCall inp s = .next t) : t.config = s.config := by
  cases hw : s.wait with
  | some x => rw [next_inj ((stepCall_waiting inp hw).symm.trans h)]
  | none => exact (runWord_hostFrame ((stepCall_ready inp hw).symm.trans h)).config

theorem loadProgram_config (bytes : List Byte) (start : Word) (s : State) :
    (s.loadProgram bytes start).config = s.config := by
  rcases Nat.lt_or_ge 4096 (start.toNat + bytes.length) with hlen | hlen
  · rw [loadProgram_fails hlen]
  · rw [loadProgram_fits hlen]

theorem resumeWithKey_config (k : Key) (s : State) : (s.resumeWithKey k).config = s.config := by
  cases hw : s.wait with
  | some x => rw [resumeWithKey_waiting k hw]; rfl
  | none => rw [resumeWithKey_ready k hw]

/-- No call of the host changes the parameters: `initialize` reads GLYPH_TABLE, and writes only R20's record (R190). -/
theorem perform_config {op : HostOp} {s t : State} (h : perform op s = .next t) : t.config = s.config := by
  cases op
  case step inp => exact stepCall_config h
  all_goals obtain rfl := next_inj h
  case loadProgram bytes start => exact loadProgram_config bytes start s
  case resumeWithKey k => exact resumeWithKey_config k s
  all_goals rfl

end Sys2Proof.Machine

namespace Sys2Proof
open Machine

/-- Settles O49: each of the three calls a step can be keeps the parameters. -/
theorem configurationIsFixed : Obligations.ConfigurationIsFixed := by
  intro s t h
  rcases step_cases s with ⟨op, rest, -, hs⟩ | ⟨-, -, hs⟩ | ⟨-, -, hs⟩
  · exact (perform_config (hs.symm.trans h)).trans (setPending_config s rest)
  · rw [next_inj (hs.symm.trans h)]
  · exact (runWord_hostFrame (hs.symm.trans h)).config

end Sys2Proof
end

section
/-! What an instruction can change of the state, said once, and from it the writers of every piece of state
(10_state.md R24 to R35). -/

namespace Sys2Proof.Machine

/-! ### The one inversion of `exec` -/

/-- The next states instruction `i` can answer in state `s`, by the piece of state it changes. A skip not taken is
`regs` with the registers as they were. -/
inductive Effect (i : Instr) (s : State) : State → Prop
  /-- Only general registers, and only those R24 lists. -/
  | regs {rs : Vector Byte 16} (kept : ∀ r : Reg, ¬ writesReg i r → rs[r] = s.reg[r]) :
      Effect i s { s with reg := rs }
  /-- The display, and of the registers those R24 lists (R32). -/
  | display {d : Display} {rs : Vector Byte 16} (hi : writesDisplay i)
      (kept : ∀ r : Reg, ¬ writesReg i r → rs[r] = s.reg[r]) : Effect i s { s with disp := d, reg := rs }
  /-- A skip taken (R120). -/
  | skip (hi : isSkip i) : Effect i s (s.setPc (s.pc + 2))
  /-- A jump (R111, R113). -/
  | jump {target : Word} (hi : isFlow i) : Effect i s (s.setPc target)
  /-- A call or a return, or the report it makes instead (R110, R112). -/
  | stack {target : Word} {entries : Vector Word 16} {depth : Fin 17} {log : List Report} (hflow : isFlow i)
      (hi : writesStack i) : Effect i s { s with pc := target, stack := entries, sp := depth, reports := log }
  /-- The address register (R29). -/
  | index {a : Word} (hi : writesI i) : Effect i s (s.setI a)
  /-- Memory (R53). -/
  | store {m : Memory} (hi : writesMemory i) : Effect i s { s with mem := m }
  /-- The delay timer (R31). -/
  | delay {v : Byte} (hi : writesDt i) : Effect i s (s.setDt v)
  /-- The sound timer (R31). -/
  | sound {v : Byte} (hi : writesSt i) : Effect i s (s.setSt v)
  /-- The start of a key wait (R35). -/
  | wait {w : Option Reg} (hi : writesWait i) : Effect i s (s.setWait w)

theorem effect_refl (i : Instr) (s : State) : Effect i s s := .regs fun _ _ => rfl

section
variable {i : Instr} {s t : State} {x : Reg}

theorem effect_skipIf {c : Bool} (hi : isSkip i) : Effect i s (s.skipIf c) := by
  cases c
  · exact effect_refl i s
  · exact .skip hi

theorem ne_of_writesReg {r : Reg} (hx : writesReg i x) (hr : ¬ writesReg i r) : x ≠ r := fun e => hr (e ▸ hx)

theorem effect_writeReg {v : Byte} (hx : writesReg i x) : Effect i s (s.writeReg x v) :=
  .regs fun _ hr => readReg_writeReg_other s v (ne_of_writesReg hx hr)

/-- The arithmetic instructions with a flag write VF and then the result (R136 to R140). -/
theorem effect_setFlag_writeReg {flag v : Byte} (hF : writesReg i vF) (hx : writesReg i x) :
    Effect i s ((s.setFlag flag).writeReg x v) :=
  .regs fun _ hr => (readReg_writeReg_other (s.setFlag flag) v (ne_of_writesReg hx hr)).trans
    (readReg_writeReg_other s flag (ne_of_writesReg hF hr))

theorem effect_loadFirst : Effect (.loadRegs x) s (s.loadFirst (x.val + 1)) := by
  rw [loadFirst_eq]
  exact .regs fun r hr => (loadFirst_readReg s (by omega) r).trans (if_neg fun hlt => hr (Nat.lt_succ_iff.mp hlt))

theorem effect_storeFirst : Effect (.storeRegs x) s (s.storeFirst (x.val + 1)) := by
  rw [storeFirst_eq]
  exact .store trivial

theorem drawFrame_setFlag (s : State) (flag : Byte) : DrawFrame s (s.setFlag flag) :=
  ⟨rfl, fun _ hr => readReg_writeReg_other s flag (Ne.symm hr)⟩

theorem DrawFrame.effect {y : Reg} {n : Nibble} (h : DrawFrame s t) : Effect (.drw x y n) s t := by
  rw [h.rest]
  exact .display trivial h.regs

theorem execRet_effect (h : execRet s = .next t) : Effect .ret s t := by
  rcases Nat.eq_zero_or_pos s.sp.val with hsp | hsp
  · obtain rfl := next_inj ((execRet_empty hsp).symm.trans h)
    exact .stack trivial trivial
  · obtain rfl := next_inj ((execRet_held hsp).symm.trans h)
    exact .stack trivial trivial

theorem execCall_effect {nnn : Addr} (h : execCall nnn s = .next t) : Effect (.call nnn) s t := by
  rcases Nat.lt_or_ge s.sp.val 16 with hsp | hsp
  · obtain rfl := next_inj ((execCall_room nnn hsp).symm.trans h)
    exact .stack trivial trivial
  · obtain rfl := next_inj ((execCall_full nnn (by omega)).symm.trans h)
    exact .stack trivial trivial

/-- Every next state of an instruction is one of its listed effects. -/
theorem exec_effect (h : exec i s = .next t) : Effect i s t := by
  cases i
  case ret => exact execRet_effect h
  case call => exact execCall_effect h
  all_goals obtain rfl := next_inj h
  case cls => exact .display trivial fun _ _ => rfl
  case drw => exact ((drawFrame_setFlag s _).trans (drawRows_frame _ _ _ _)).effect
  case jp | jpV0 => exact .jump trivial
  case seImm | sneImm | seReg | sneReg | skp | sknp => exact effect_skipIf trivial
  case ldImm | addImm | ldReg | orReg | andReg | xorReg | rnd | ldVxDt => exact effect_writeReg rfl
  case addReg | subReg | shrReg | subnReg | shlReg => exact effect_setFlag_writeReg (Or.inr rfl) (Or.inl rfl)
  case ldI | addI | ldF => exact .index trivial
  case ldB => exact .store trivial
  case storeRegs => exact effect_storeFirst
  case loadRegs => exact effect_loadFirst
  case ldDtVx => exact .delay trivial
  case ldStVx => exact .sound trivial
  case ldVxK => exact .wait trivial

/-! ### The writers of each piece of state -/

theorem Effect.pc_moved (h : Effect i s t) (hpc : t.pc ≠ s.pc) : isFlow i ∨ isSkip i ∧ t.pc = s.pc + 2 := by
  cases h
  case skip hi => exact .inr ⟨hi, rfl⟩
  case jump hi => exact .inl hi
  case stack hflow _ => exact .inl hflow
  all_goals exact absurd rfl hpc

theorem Effect.readReg_kept (h : Effect i s t) {r : Reg} (hr : ¬ writesReg i r) : t.readReg r = s.readReg r := by
  cases h
  case regs kept => exact kept r hr
  case display _ kept => exact kept r hr
  all_goals rfl

theorem Effect.i_kept (h : Effect i s t) (hn : ¬ writesI i) : t.i = s.i := by
  cases h
  case index hi => exact absurd hi hn
  all_goals rfl

theorem Effect.stack_kept (h : Effect i s t) (hn : ¬ writesStack i) :
    t.sp = s.sp ∧ t.stack = s.stack ∧ t.reports = s.reports := by
  cases h
  case stack _ hi => exact absurd hi hn
  all_goals exact ⟨rfl, rfl, rfl⟩

theorem Effect.disp_kept (h : Effect i s t) (hn : ¬ writesDisplay i) : t.disp = s.disp := by
  cases h
  case display hi _ => exact absurd hi hn
  all_goals rfl

theorem Effect.mem_kept (h : Effect i s t) (hn : ¬ writesMemory i) : t.mem = s.mem := by
  cases h
  case store hi => exact absurd hi hn
  all_goals rfl

theorem Effect.dt_kept (h : Effect i s t) (hn : ¬ writesDt i) : t.dt = s.dt := by
  cases h
  case delay hi => exact absurd hi hn
  all_goals rfl

theorem Effect.st_kept (h : Effect i s t) (hn : ¬ writesSt i) : t.st = s.st := by
  cases h
  case sound hi => exact absurd hi hn
  all_goals rfl

theorem Effect.wait_kept (h : Effect i s t) (hn : ¬ writesWait i) : t.wait = s.wait := by
  cases h
  case wait hi => exact absurd hi hn
  all_goals rfl

end

/-- What memory reads as depends on nothing but memory. -/
theorem memRead_congr {s t : State} (h : t.mem = s.mem) (a : Nat) : t.memRead a = s.memRead a := by
  simp only [State.memRead, h]

end Sys2Proof.Machine

namespace Sys2Proof
open Machine

/-- Settles O50: of an instruction's effects only a skip, a jump, a call and a return reach PC. -/
theorem onlyFlowAndSkipsMovePc : Obligations.OnlyFlowAndSkipsMovePc :=
  fun _ _ _ h hpc => (exec_effect h).pc_moved hpc

/-- Settles O51: an instruction's effect on the registers is bounded by R24's list. -/
theorem registerWritersAsListed : Obligations.RegisterWritersAsListed :=
  fun _ _ _ _ h hr => (exec_effect h).readReg_kept hr

/-- Settles O52: each piece of R20's record is kept by every effect but its own; the model's own fields are in no
effect. -/
theorem stateWritersAsListed : Obligations.StateWritersAsListed := by
  intro i s t h
  have e := exec_effect h
  have f := exec_hostFrame h
  exact ⟨e.i_kept, e.stack_kept, e.disp_kept, fun hn => memRead_congr (e.mem_kept hn), e.dt_kept, e.st_kept,
    e.wait_kept, f.config, f.input, f.pending, f.inputsTaken⟩

end Sys2Proof
end

section
/-! What an instruction depends on: it commutes with every change of registers it does not use and of input it does
not read (10_state.md R24, R21). -/

namespace Sys2Proof.Machine

/-! ### A change of registers and input -/

/-- The state with its register file changed by `g` and the step's input by `k`. -/
def State.disturb (s : State) (g : Vector Byte 16 → Vector Byte 16) (k : Input → Input) : State :=
  { s with reg := g s.reg, input := k s.input }

/-- Another value for one register is such a change. -/
theorem writeReg_eq_disturb (s : State) (r : Reg) (v : Byte) :
    s.writeReg r v = s.disturb (fun rs => rs.set r v) id := rfl

/-- Another input is such a change. -/
theorem setInput_eq_disturb (s : State) (inp : Input) : s.setInput inp = s.disturb id fun _ => inp := rfl

/-- `g` leaves register `q` out: it makes no difference whether `q` is written before it or after it. -/
def LeavesOut (g : Vector Byte 16 → Vector Byte 16) (q : Reg) : Prop :=
  ∀ (rs : Vector Byte 16) (w : Byte), (g rs).set q w = g (rs.set q w)

theorem leavesOut_id (q : Reg) : LeavesOut id q := fun _ _ => rfl

theorem leavesOut_set {r q : Reg} (h : q ≠ r) (v : Byte) : LeavesOut (fun rs => rs.set r v) q :=
  fun _ _ => Vector.set_comm _ _ fun e => h (Fin.ext e.symm)

section
variable {g : Vector Byte 16 → Vector Byte 16} {k : Input → Input}

theorem writeReg_disturb {q : Reg} (h : LeavesOut g q) (s : State) (w : Byte) :
    (s.disturb g k).writeReg q w = (s.writeReg q w).disturb g k := by
  simp only [State.writeReg, State.disturb, h s.reg w]

theorem readReg_disturb {q : Reg} (h : LeavesOut g q) (s : State) : (s.disturb g k).readReg q = s.readReg q := by
  have hset : s.writeReg q (s.readReg q) = s := by simp [State.writeReg, State.readReg]
  calc (s.disturb g k).readReg q
      = ((s.writeReg q (s.readReg q)).disturb g k).readReg q := by rw [hset]
    _ = s.readReg q := by rw [← writeReg_disturb h, readReg_writeReg_same]

theorem skipIf_disturb (s : State) (c : Bool) : (s.disturb g k).skipIf c = (s.skipIf c).disturb g k := by
  cases c <;> rfl

theorem keyPressed_disturb_id (s : State) (v : Byte) : (s.disturb g id).keyPressed v = s.keyPressed v := rfl

/-! ### The loops of Dxyn, Fx55 and Fx65 -/

theorem flipCell_disturb (h : LeavesOut g vF) (s : State) (c : Fin 64) (r : Fin 32) :
    (s.disturb g k).flipCell c r = (s.flipCell c r).disturb g k := by
  cases hc : s.disp.cell c r
  · rw [flipCell_off hc, flipCell_off (s := s.disturb g k) hc]; rfl
  · rw [flipCell_on hc, flipCell_on (s := s.disturb g k) hc, writeReg_disturb h]; rfl

theorem drawBit_disturb (h : LeavesOut g vF) (s : State) (ox oy rowNo : Nat) (sprite : Byte) (col : Nat) :
    (s.disturb g k).drawBit ox oy rowNo sprite col = (s.drawBit ox oy rowNo sprite col).disturb g k := by
  unfold State.drawBit
  split
  · exact flipCell_disturb h s _ _
  · rfl

theorem drawCols_disturb (h : LeavesOut g vF) (s : State) (ox oy rowNo : Nat) (sprite : Byte) (cols : Nat) :
    (s.disturb g k).drawCols ox oy rowNo sprite cols = (s.drawCols ox oy rowNo sprite cols).disturb g k := by
  induction cols with
  | zero => rfl
  | succ cols ih => rw [State.drawCols, ih, drawBit_disturb h, State.drawCols]

theorem drawRows_disturb (h : LeavesOut g vF) (s : State) (ox oy rows : Nat) :
    (s.disturb g k).drawRows ox oy rows = (s.drawRows ox oy rows).disturb g k := by
  induction rows with
  | zero => rfl
  | succ rows ih => rw [State.drawRows, ih]; exact drawCols_disturb h _ _ _ _ _ _

theorem storeFirst_disturb (s : State) {n : Nat} (h : ∀ j < n, LeavesOut g (regAt j)) :
    (s.disturb g k).storeFirst n = (s.storeFirst n).disturb g k := by
  induction n with
  | zero => rfl
  | succ n ih =>
    simp only [State.storeFirst, ih fun j hj => h j (by omega), readReg_disturb (h n (by omega))]
    rfl

theorem loadFirst_disturb (s : State) {n : Nat} (h : ∀ j < n, LeavesOut g (regAt j)) :
    (s.disturb g k).loadFirst n = (s.loadFirst n).disturb g k := by
  induction n with
  | zero => rfl
  | succ n ih =>
    simp only [State.loadFirst, ih fun j hj => h j (by omega), writeReg_disturb (h n (by omega))]
    rfl

/-! ### Every instruction commutes with a change it does not see -/

theorem execRet_disturb {s t : State} (h : execRet s = .next t) :
    execRet (s.disturb g k) = .next (t.disturb g k) := by
  rcases Nat.eq_zero_or_pos s.sp.val with hsp | hsp
  · obtain rfl := next_inj ((execRet_empty hsp).symm.trans h)
    exact execRet_empty (s := s.disturb g k) hsp
  · obtain rfl := next_inj ((execRet_held hsp).symm.trans h)
    exact execRet_held (s := s.disturb g k) hsp

theorem execCall_disturb {nnn : Addr} {s t : State} (h : execCall nnn s = .next t) :
    execCall nnn (s.disturb g k) = .next (t.disturb g k) := by
  rcases Nat.lt_or_ge s.sp.val 16 with hsp | hsp
  · obtain rfl := next_inj ((execCall_room nnn hsp).symm.trans h)
    exact execCall_room (s := s.disturb g k) nnn hsp
  · have hfull : s.sp.val = 16 := by omega
    obtain rfl := next_inj ((execCall_full nnn hfull).symm.trans h)
    exact execCall_full (s := s.disturb g k) nnn hfull

theorem regAt_le {x : Reg} {j : Nat} (hj : j < x.val + 1) : (regAt j).val ≤ x.val := by
  rw [regAt_val (by omega)]
  exact Nat.lt_succ_iff.mp hj

/-- Changing registers an instruction neither reads nor writes, and the input where it reads none, before it or
after it comes to the same. -/
theorem exec_disturb {i : Instr} {s t : State} (hread : ∀ q, readsReg i q → LeavesOut g q)
    (hwrite : ∀ q, writesReg i q → LeavesOut g q) (hinput : readsInput i → k = id) (h : exec i s = .next t) :
    exec i (s.disturb g k) = .next (t.disturb g k) := by
  have rd {q : Reg} (hq : readsReg i q) (s : State) : (s.disturb g k).readReg q = s.readReg q :=
    readReg_disturb (hread q hq) s
  have wr {q : Reg} (hq : writesReg i q) (s : State) (w : Byte) :
      (s.disturb g k).writeReg q w = (s.writeReg q w).disturb g k := writeReg_disturb (hwrite q hq) s w
  cases i
  case ret => exact execRet_disturb h
  case call => exact execCall_disturb h
  all_goals obtain rfl := next_inj h
  case cls | jp | ldI | ldVxK => rfl
  case seImm x _ | sneImm x _ => simp only [exec, execSeImm, execSneImm, rd (q := x) rfl, skipIf_disturb]
  case seReg x y | sneReg x y =>
    simp only [exec, execSeReg, execSneReg, rd (q := x) (Or.inl rfl), rd (q := y) (Or.inr rfl), skipIf_disturb]
  case skp x | sknp x =>
    obtain rfl := hinput trivial
    simp only [exec, execSkp, execSknp, rd (q := x) rfl, keyPressed_disturb_id, skipIf_disturb]
  case ldImm x _ | ldVxDt x => exact congrArg Host.Outcome.next (wr (q := x) rfl s _)
  case rnd x _ =>
    obtain rfl := hinput trivial
    exact congrArg Host.Outcome.next (wr (q := x) rfl s _)
  case addImm x _ => simp only [exec, execAddImm, rd (q := x) rfl, wr (q := x) rfl]
  case ldReg x y => simp only [exec, execLdReg, rd (q := y) rfl, wr (q := x) rfl]
  case orReg x y | andReg x y | xorReg x y =>
    simp only [exec, execOrReg, execAndReg, execXorReg, rd (q := x) (Or.inl rfl), rd (q := y) (Or.inr rfl),
      wr (q := x) rfl]
  case addReg x y | subReg x y | subnReg x y =>
    simp only [exec, execAddReg, execSubReg, execSubnReg, setFlag_eq, rd (q := x) (Or.inl rfl),
      rd (q := y) (Or.inr rfl), wr (q := x) (Or.inl rfl), wr (q := vF) (Or.inr rfl)]
  case shrReg x _ | shlReg x _ =>
    simp only [exec, execShrReg, execShlReg, setFlag_eq, rd (q := x) rfl, wr (q := x) (Or.inl rfl),
      wr (q := vF) (Or.inr rfl)]
  case drw x y n =>
    simp only [exec, execDrw, setFlag_eq, rd (q := x) (Or.inl rfl), rd (q := y) (Or.inr rfl), wr (q := vF) rfl,
      drawRows_disturb (hwrite vF rfl)]
  case jpV0 => simp only [exec, execJpV0, rd (q := 0) rfl]; rfl
  case ldDtVx x | ldStVx x | addI x | ldF x | ldB x =>
    simp only [exec, execLdDtVx, execLdStVx, execAddI, execLdF, execLdB, rd (q := x) rfl]
    rfl
  case storeRegs x => exact congrArg Host.Outcome.next (storeFirst_disturb s fun j hj => hread _ (regAt_le hj))
  case loadRegs x => exact congrArg Host.Outcome.next (loadFirst_disturb s fun j hj => hwrite _ (regAt_le hj))

end

/-! ### A register that is written before it is read -/

theorem writeReg_writeReg_same (s : State) (x : Reg) (v w : Byte) : (s.writeReg x v).writeReg x w = s.writeReg x w := by
  simp only [State.writeReg, Vector.set_set]

/-- A block load overwrites the registers it reaches (R155). -/
theorem loadFirst_writeReg (s : State) {n : Nat} (hn : n ≤ 16) {r : Reg} (hr : r.val < n) (v : Byte) :
    (s.writeReg r v).loadFirst n = s.loadFirst n := by
  have hregs : ((s.writeReg r v).loadFirst n).reg = (s.loadFirst n).reg := by
    refine reg_ext fun q => ?_
    rw [loadFirst_readReg _ hn, loadFirst_readReg _ hn]
    split
    case isTrue => rfl
    case isFalse hq => exact readReg_writeReg_other s v fun e : r = q => hq (e ▸ hr)
  rw [loadFirst_eq, hregs, loadFirst_eq s]
  rfl

/-- An instruction that writes a register and does not read it forgets what the register held. -/
theorem exec_writeReg_of_writesReg {i : Instr} {r : Reg} (hw : writesReg i r) (hr : ¬ readsReg i r) (s : State)
    (v : Byte) : exec i (s.writeReg r v) = exec i s := by
  cases i
  case ldImm | rnd | ldVxDt =>
    obtain rfl := hw
    exact congrArg Host.Outcome.next (writeReg_writeReg_same s r v _)
  case ldReg x y =>
    obtain rfl := hw
    simp only [exec, execLdReg, readReg_writeReg_other s v hr, writeReg_writeReg_same]
  case addReg x y | subReg x y | subnReg x y =>
    obtain ⟨hx, hy⟩ := not_or.mp hr
    obtain rfl := hw.resolve_left hx
    simp only [exec, execAddReg, execSubReg, execSubnReg, setFlag_eq, readReg_writeReg_other s v hx,
      readReg_writeReg_other s v hy, writeReg_writeReg_same]
  case shrReg x _ | shlReg x _ =>
    obtain rfl := hw.resolve_left hr
    simp only [exec, execShrReg, execShlReg, setFlag_eq, readReg_writeReg_other s v hr, writeReg_writeReg_same]
  case drw x y _ =>
    obtain ⟨hx, hy⟩ := not_or.mp hr
    obtain rfl := hw
    simp only [exec, execDrw, setFlag_eq, readReg_writeReg_other s v hx, readReg_writeReg_other s v hy,
      writeReg_writeReg_same]
  case loadRegs x => exact congrArg Host.Outcome.next (loadFirst_writeReg s (by omega) (Nat.lt_succ_iff.mpr hw) v)
  case addImm => exact absurd hw hr
  case orReg | andReg | xorReg => exact absurd (Or.inl hw) hr
  all_goals exact hw.elim

/-- A register an instruction neither reads nor writes keeps the value it is given before. -/
theorem exec_writeReg_of_not_writesReg {i : Instr} {s t : State} {r : Reg} (hw : ¬ writesReg i r)
    (hr : ¬ readsReg i r) (v : Byte) (h : exec i s = .next t) : exec i (s.writeReg r v) = .next (t.writeReg r v) := by
  rw [writeReg_eq_disturb, writeReg_eq_disturb]
  exact exec_disturb (fun q hq => leavesOut_set (fun e : q = r => hr (e ▸ hq)) v)
    (fun q hq => leavesOut_set (ne_of_writesReg hq hw) v) (fun _ => rfl) h

end Sys2Proof.Machine

namespace Sys2Proof
open Machine

/-- Settles O53: a register the instruction writes is overwritten unread, and one it leaves alone passes through. -/
theorem registerReadersAsListed : Obligations.RegisterReadersAsListed := by
  intro i s t r v h hr
  by_cases hw : writesReg i r
  · exact ⟨t, (exec_writeReg_of_writesReg hw hr s v).trans h, rfl, fun _ _ => rfl, fun _ => rfl, absurd hw⟩
  · exact ⟨t.writeReg r v, exec_writeReg_of_not_writesReg hw hr v h, rfl,
      fun _ hq => readReg_writeReg_other t v (Ne.symm hq), fun hw' => absurd hw' hw,
      fun _ => readReg_writeReg_same t r v⟩

/-- Settles O54: another input is a change the other instructions do not see. -/
theorem onlyInputReadersDependOnInput : Obligations.OnlyInputReadersDependOnInput := by
  intro i s t inp hi h
  rw [setInput_eq_disturb, setInput_eq_disturb]
  exact exec_disturb (fun q _ => leavesOut_id q) (fun q _ => leavesOut_id q) (fun hi' => absurd hi' hi) h

end Sys2Proof
end

section
/-! Memory (20_memory.md): what a block store leaves where the next fetch reads (R63), and the invariant of the whole
machine, canonical memory (R50) and sound reports (R171), kept by every call of the host. -/

namespace Sys2Proof.Machine

/-! ### A store and the fetch after it -/

/-- A byte is read at its address mod 4096 (R52). -/
theorem memRead_mod (s : State) (a : Nat) : s.memRead (a % memorySize) = s.memRead a := by
  simp only [State.memRead, Nat.mod_mod]

/-- Addresses that meet mod 4096 name the same byte (R52). -/
theorem memRead_of_mod_eq {a b : Nat} (s : State) (h : a % memorySize = b % memorySize) :
    s.memRead a = s.memRead b := by
  rw [← memRead_mod s a, h, memRead_mod]

/-- The fetched word as a number: the byte at PC is its high byte (R71). -/
theorem fetch_toNat (s : State) :
    s.fetch.toNat = (s.memRead s.pc.toNat).toNat * 256 + (s.memRead (s.pc.toNat + 1)).toNat :=
  wordOfBytes_toNat _ _

theorem storeFirst_pc (s : State) (k : Nat) : (s.storeFirst k).pc = s.pc := by rw [storeFirst_eq]

/-- Fx55 leaves register r at every address that is EA(I, r) mod 4096 (R154, R52). -/
theorem storeFirst_memRead {s : State} {x r : Reg} {a : Nat} (hr : r ≤ x) (ha : a % memorySize = s.ea r.val) :
    (s.storeFirst (x.val + 1)).memRead a = s.readReg r := by
  have hlt : r.val < x.val + 1 := Nat.lt_succ_of_le hr
  have hmeet : a % memorySize = s.ea r.val % memorySize := ha.trans (ea_mod s r.val).symm
  rw [memRead_of_mod_eq _ hmeet, storeFirst_hit s x.isLt hlt, regAt_reg]

/-- The effective address one further on, where EA(I, j) is PC mod 4096, is the one the fetch reads second (R51, D4). -/
theorem ea_succ_of_ea {s : State} {j a : Nat} (h : s.ea j = a % memorySize) :
    (a + 1) % memorySize = s.ea (j + 1) := by
  simp only [State.ea, memorySize] at *
  omega

/-! ### The invariant: reports and memory -/

/-- The invariant reads memory and the reports only. -/
theorem MachineInv.congr {s t : State} (hs : MachineInv s) (hm : t.mem = s.mem) (hr : t.reports = s.reports) :
    MachineInv t := by
  rw [MachineInv, hm, hr]
  exact hs

/-- A report that names a word able to cause it keeps the invariant (R171). -/
theorem MachineInv.report {s : State} (hs : MachineInv s) {kind : ReportKind} {op : Word}
    (hsound : reportSound ⟨kind, op, s.fetchPc⟩ = true) : MachineInv (s.report kind op) := by
  obtain ⟨hmem, hrep⟩ := hs
  refine ⟨hmem, fun r hr => ?_⟩
  rcases List.mem_append.mp hr with hold | hnew
  · exact hrep r hold
  · rw [List.mem_singleton.mp hnew]
    exact hsound

/-- Words that do not decode are the ones that cause the first kind of report (R76, R171). -/
theorem reportSound_unknown {op : Word} {e : Reject} (h : decode op = .error e) (pc : Word) :
    reportSound ⟨.unknownInstruction, op, pc⟩ = true := by
  simp only [reportSound, h]

/-- 00EE causes the second kind (R110, R171). -/
theorem reportSound_ret (pc : Word) : reportSound ⟨.stackUnderflow, encode .ret, pc⟩ = true := by
  simp [reportSound, encode]

/-- 2nnn causes the third kind, whatever its address (R112, R171). -/
theorem reportSound_call (nnn : Addr) (pc : Word) : reportSound ⟨.stackOverflow, encode (.call nnn), pc⟩ = true := by
  simp [reportSound, encode]

/-! ### The invariant: instructions -/

theorem execRet_inv {s t : State} (hs : MachineInv s) (h : execRet s = .next t) : MachineInv t := by
  rcases Nat.eq_zero_or_pos s.sp.val with hsp | hsp
  · obtain rfl := next_inj ((execRet_empty hsp).symm.trans h)
    exact hs.report (reportSound_ret _)
  · obtain rfl := next_inj ((execRet_held hsp).symm.trans h)
    exact hs.congr rfl rfl

theorem execCall_inv {nnn : Addr} {s t : State} (hs : MachineInv s) (h : execCall nnn s = .next t) :
    MachineInv t := by
  rcases Nat.lt_or_ge s.sp.val 16 with hsp | hsp
  · obtain rfl := next_inj ((execCall_room nnn hsp).symm.trans h)
    exact hs.congr rfl rfl
  · obtain rfl := next_inj ((execCall_full nnn (by omega)).symm.trans h)
    exact hs.report (reportSound_call nnn _)

/-- A write keeps the invariant, whatever its address: `MemWrite` reduces it mod 4096 (R52). -/
theorem MachineInv.memWrite {s : State} (hs : MachineInv s) (a : Nat) (v : Byte) : MachineInv (s.memWrite a v) :=
  ⟨memWrite_wf hs.1 a v, hs.2⟩

theorem MachineInv.storeFirst {s : State} (hs : MachineInv s) (k : Nat) : MachineInv (s.storeFirst k) := by
  induction k with
  | zero => exact hs
  | succ k ih => exact ih.memWrite _ _

/-- An instruction keeps the invariant. Only 00EE and 2nnn can report and only Fx33 and Fx55 write memory; every other
instruction's effect reaches neither. -/
theorem exec_inv {i : Instr} {s t : State} (hs : MachineInv s) (h : exec i s = .next t) : MachineInv t := by
  cases i
  case ret => exact execRet_inv hs h
  case call => exact execCall_inv hs h
  case ldB =>
    obtain rfl := next_inj h
    exact ((hs.memWrite _ _).memWrite _ _).memWrite _ _
  case storeRegs =>
    obtain rfl := next_inj h
    exact hs.storeFirst _
  all_goals
    have e := exec_effect h
    obtain ⟨-, -, hrep⟩ := e.stack_kept id
    exact hs.congr (e.mem_kept id) hrep

/-- Running a word keeps the invariant: an unknown one is reported as what it is (R70, R76). -/
theorem runWord_inv {op : Word} {s t : State} (hs : MachineInv s) (h : runWord op s = .next t) : MachineInv t := by
  have hadvance : MachineInv s.advancePc := hs.congr rfl rfl
  cases hd : decode op with
  | ok i => exact exec_inv hadvance ((runWord_ok hd s).symm.trans h)
  | error e =>
    obtain rfl := next_inj ((runWord_unknown hd s).symm.trans h)
    exact hadvance.report (reportSound_unknown hd _)

/-! ### The invariant: the host's calls -/

theorem stepCall_inv {inp : Input} {s t : State} (hs : MachineInv s) (h : stepCall inp s = .next t) :
    MachineInv t := by
  cases hw : s.wait with
  | some x =>
    obtain rfl := next_inj ((stepCall_waiting inp hw).symm.trans h)
    exact hs
  | none => exact runWord_inv (hs.congr (t := s.setInput inp) rfl rfl) ((stepCall_ready inp hw).symm.trans h)

/-- A program is loaded only where all of it lies below 4096, so memory stays canonical (R194, D19). -/
theorem MachineInv.loadProgram {s : State} (hs : MachineInv s) (bytes : List Byte) (start : Word) :
    MachineInv (s.loadProgram bytes start) := by
  rcases Nat.lt_or_ge 4096 (start.toNat + bytes.length) with hlen | hlen
  · rw [loadProgram_fails hlen]
    exact hs
  · rw [loadProgram_fits hlen]
    exact ⟨Memory.wf_writeBytes hs.1 hlen, hs.2⟩

theorem MachineInv.resumeWithKey {s : State} (hs : MachineInv s) (k : Key) : MachineInv (s.resumeWithKey k) := by
  cases hw : s.wait with
  | some x =>
    rw [resumeWithKey_waiting k hw]
    exact hs.congr rfl rfl
  | none =>
    rw [resumeWithKey_ready k hw]
    exact hs

/-- `initialize` leaves a canonical memory and does not clear the reports (R190, D20). -/
theorem MachineInv.initCore {s : State} (hs : MachineInv s) (start : Word) : MachineInv (s.initCore start) :=
  ⟨Memory.wf_initial s.config.glyphTable, hs.2⟩

/-- Every call of the host keeps the invariant (R183). -/
theorem perform_inv {op : HostOp} {s t : State} (hs : MachineInv s) (h : perform op s = .next t) :
    MachineInv t := by
  cases op
  case step inp => exact stepCall_inv hs h
  all_goals obtain rfl := next_inj h
  case init start => exact hs.initCore start
  case loadProgram bytes start => exact hs.loadProgram bytes start
  case tickTimers => exact hs.congr rfl rfl
  case readDisplay | isAwaitingKey => exact hs
  case resumeWithKey k => exact hs.resumeWithKey k

end Sys2Proof.Machine

namespace Sys2Proof
open Machine

/-- Settles O45: each of the three calls a step can be keeps the invariant. -/
theorem stepKeepsInvariant : Obligations.StepKeepsInvariant := by
  intro s t hs h
  rcases step_cases s with ⟨op, rest, -, hstep⟩ | ⟨-, -, hstep⟩ | ⟨-, -, hstep⟩
  · exact perform_inv (hs.congr (t := s.setPending rest) rfl rfl) (hstep.symm.trans h)
  · obtain rfl := next_inj (hstep.symm.trans h)
    exact hs
  · exact runWord_inv (hs.congr (t := s.countInput.setInput s.freeInput) rfl rfl) (hstep.symm.trans h)

/-- Settles O32: the fetch reads at EA(I, j) and EA(I, j + 1), where Fx55 has left the two registers. -/
theorem storedWordIsFetchedNext : Obligations.StoredWordIsFetchedNext := by
  intro s x j k hk hkx hpc
  have hjx : j ≤ x := by rw [Fin.le_def] at *; omega
  have hhigh := storeFirst_memRead hjx hpc.symm
  have hlow := storeFirst_memRead (a := s.pc.toNat + 1) hkx (hk ▸ ea_succ_of_ea hpc)
  refine ⟨_, rfl, ?_⟩
  rw [fetch_toNat, storeFirst_pc, hhigh, hlow]

end Sys2Proof
end

section
/-! Encoding (30_encoding.md): what the decoder makes of each group, the two round trips, the words the decoder and
the opcode table accept, and the step around the decoder. -/

namespace Sys2Proof

/-! ### One equation of the decoder per group (R75) -/

theorem decode_group0 {op : Word} (h : fieldGroup op = 0x0) : decode op = decodeGroup0 op := by simp [decode, h]
theorem decode_group1 {op : Word} (h : fieldGroup op = 0x1) : decode op = .ok (.jp (fieldNNN op)) := by
  simp [decode, h]
theorem decode_group2 {op : Word} (h : fieldGroup op = 0x2) : decode op = .ok (.call (fieldNNN op)) := by
  simp [decode, h]
theorem decode_group3 {op : Word} (h : fieldGroup op = 0x3) : decode op = .ok (.seImm (fieldX op) (fieldNN op)) := by
  simp [decode, h]
theorem decode_group4 {op : Word} (h : fieldGroup op = 0x4) : decode op = .ok (.sneImm (fieldX op) (fieldNN op)) := by
  simp [decode, h]
theorem decode_group5 {op : Word} (h : fieldGroup op = 0x5) : decode op = decodeGroup5 op := by simp [decode, h]
theorem decode_group6 {op : Word} (h : fieldGroup op = 0x6) : decode op = .ok (.ldImm (fieldX op) (fieldNN op)) := by
  simp [decode, h]
theorem decode_group7 {op : Word} (h : fieldGroup op = 0x7) : decode op = .ok (.addImm (fieldX op) (fieldNN op)) := by
  simp [decode, h]
theorem decode_group8 {op : Word} (h : fieldGroup op = 0x8) : decode op = decodeGroup8 op := by simp [decode, h]
theorem decode_group9 {op : Word} (h : fieldGroup op = 0x9) : decode op = decodeGroup9 op := by simp [decode, h]
theorem decode_groupA {op : Word} (h : fieldGroup op = 0xA) : decode op = .ok (.ldI (fieldNNN op)) := by
  simp [decode, h]
theorem decode_groupB {op : Word} (h : fieldGroup op = 0xB) : decode op = .ok (.jpV0 (fieldNNN op)) := by
  simp [decode, h]
theorem decode_groupC {op : Word} (h : fieldGroup op = 0xC) : decode op = .ok (.rnd (fieldX op) (fieldNN op)) := by
  simp [decode, h]
theorem decode_groupD {op : Word} (h : fieldGroup op = 0xD) :
    decode op = .ok (.drw (fieldX op) (fieldY op) (fieldN op)) := by simp [decode, h]
theorem decode_groupE {op : Word} (h : fieldGroup op = 0xE) : decode op = decodeGroupE op := by simp [decode, h]
theorem decode_groupF {op : Word} (h : fieldGroup op = 0xF) : decode op = decodeGroupF op := by simp [decode, h]

/-- Settles O2: an encoded word's group and subcode are the instruction's own, so its group's equation applies, and
its other fields are the operands. -/
theorem decodeEncodeRoundTrip : Obligations.DecodeEncodeRoundTrip := by
  intro i
  cases i
  case cls | ret => rfl
  case jp | call | ldI | jpV0 =>
    simp [encode, decode_group1, decode_group2, decode_groupA, decode_groupB]
  case seImm | sneImm | ldImm | addImm | rnd =>
    simp [encode, decode_group3, decode_group4, decode_group6, decode_group7, decode_groupC]
  case drw => simp [encode, decode_groupD]
  case seReg | sneReg => simp [encode, decode_group5, decodeGroup5, decode_group9, decodeGroup9]
  case skp | sknp => simp [encode, decode_groupE, decodeGroupE]
  case ldVxDt | ldVxK | ldDtVx | ldStVx | addI | ldF | ldB | storeRegs | loadRegs =>
    simp [encode, decode_groupF, decodeGroupF]
  all_goals simp [encode, decode_group8, decodeGroup8]

/-! ### A word is the encoding of what it decodes to -/

theorem encodeNNN_of_fields {op : Word} {g : BitVec 4} (hg : fieldGroup op = g) :
    encodeNNN g (fieldNNN op) = op := hg ▸ encodeNNN_fields op

theorem encodeXNN_of_fields {op : Word} {g : BitVec 4} {nn : Byte} (hg : fieldGroup op = g) (hnn : fieldNN op = nn) :
    encodeXNN g (fieldX op) nn = op := hg ▸ hnn ▸ encodeXNN_fields op

theorem encodeXYN_of_fields {op : Word} {g : BitVec 4} {n : Nibble} (hg : fieldGroup op = g) (hn : fieldN op = n) :
    encodeXYN g (fieldX op) (fieldY op) n = op := hg ▸ hn ▸ encodeXYN_fields op

theorem encode_of_decodeGroup0 {op : Word} {i : Instr} (h : decodeGroup0 op = .ok i) : encode i = op := by
  unfold decodeGroup0 at h
  split_ifs at h with hcls hret
  · cases h; exact hcls.symm
  · cases h; exact hret.symm

theorem encode_of_decodeGroup5 {op : Word} {i : Instr} (hg : fieldGroup op = 0x5) (h : decodeGroup5 op = .ok i) :
    encode i = op := by
  unfold decodeGroup5 at h
  split_ifs at h with hn
  cases h; exact encodeXYN_of_fields hg hn

/-- Every branch of group 8 knows its subcode, which the encoder writes back. -/
theorem encode_of_decodeGroup8 {op : Word} {i : Instr} (hg : fieldGroup op = 0x8) (h : decodeGroup8 op = .ok i) :
    encode i = op := by
  unfold decodeGroup8 at h
  split_ifs at h
  all_goals cases h; exact encodeXYN_of_fields hg (by assumption)

theorem encode_of_decodeGroup9 {op : Word} {i : Instr} (hg : fieldGroup op = 0x9) (h : decodeGroup9 op = .ok i) :
    encode i = op := by
  unfold decodeGroup9 at h
  split_ifs at h with hn
  cases h; exact encodeXYN_of_fields hg hn

theorem encode_of_decodeGroupE {op : Word} {i : Instr} (hg : fieldGroup op = 0xE) (h : decodeGroupE op = .ok i) :
    encode i = op := by
  unfold decodeGroupE at h
  split_ifs at h with hskp hsknp
  · cases h; exact encodeXNN_of_fields hg hskp
  · cases h; exact encodeXNN_of_fields hg hsknp

/-- Every branch of group F knows its subcode, which the encoder writes back. -/
theorem encode_of_decodeGroupF {op : Word} {i : Instr} (hg : fieldGroup op = 0xF) (h : decodeGroupF op = .ok i) :
    encode i = op := by
  unfold decodeGroupF at h
  split_ifs at h
  all_goals cases h; exact encodeXNN_of_fields hg (by assumption)

/-- Settles O3, by the word's group: the encoder writes the group and the subcode the decoder branched on, and the
other fields are the operands. -/
theorem encodeDecodeRoundTrip : Obligations.EncodeDecodeRoundTrip := by
  intro op i h
  rcases group_cases (fieldGroup op) with
    hg | hg | hg | hg | hg | hg | hg | hg | hg | hg | hg | hg | hg | hg | hg | hg
  · exact encode_of_decodeGroup0 ((decode_group0 hg).symm.trans h)
  · cases (decode_group1 hg).symm.trans h; exact encodeNNN_of_fields hg
  · cases (decode_group2 hg).symm.trans h; exact encodeNNN_of_fields hg
  · cases (decode_group3 hg).symm.trans h; exact encodeXNN_of_fields hg rfl
  · cases (decode_group4 hg).symm.trans h; exact encodeXNN_of_fields hg rfl
  · exact encode_of_decodeGroup5 hg ((decode_group5 hg).symm.trans h)
  · cases (decode_group6 hg).symm.trans h; exact encodeXNN_of_fields hg rfl
  · cases (decode_group7 hg).symm.trans h; exact encodeXNN_of_fields hg rfl
  · exact encode_of_decodeGroup8 hg ((decode_group8 hg).symm.trans h)
  · exact encode_of_decodeGroup9 hg ((decode_group9 hg).symm.trans h)
  · cases (decode_groupA hg).symm.trans h; exact encodeNNN_of_fields hg
  · cases (decode_groupB hg).symm.trans h; exact encodeNNN_of_fields hg
  · cases (decode_groupC hg).symm.trans h; exact encodeXNN_of_fields hg rfl
  · cases (decode_groupD hg).symm.trans h; exact encodeXYN_of_fields hg rfl
  · exact encode_of_decodeGroupE hg ((decode_groupE hg).symm.trans h)
  · exact encode_of_decodeGroupF hg ((decode_groupF hg).symm.trans h)

/-! ### The words the decoder accepts -/

/-- A word R75 gives a meaning: in a group that reads a subcode, the subcode is one of those listed. -/
def KnownWord (op : Word) : Prop :=
  (fieldGroup op = 0x0 → op ∈ [0x00E0, 0x00EE]) ∧
  (fieldGroup op = 0x5 → fieldN op = 0x0) ∧
  (fieldGroup op = 0x8 → fieldN op ∈ [0x0, 0x1, 0x2, 0x3, 0x4, 0x5, 0x6, 0x7, 0xE]) ∧
  (fieldGroup op = 0x9 → fieldN op = 0x0) ∧
  (fieldGroup op = 0xE → fieldNN op ∈ [0x9E, 0xA1]) ∧
  (fieldGroup op = 0xF → fieldNN op ∈ [0x07, 0x0A, 0x15, 0x18, 0x1E, 0x29, 0x33, 0x55, 0x65])

theorem decodeGroup0_ok_iff (op : Word) : (∃ i, decodeGroup0 op = .ok i) ↔ op ∈ [0x00E0, 0x00EE] := by
  unfold decodeGroup0
  split_ifs <;> simp_all

theorem decodeGroup5_ok_iff (op : Word) : (∃ i, decodeGroup5 op = .ok i) ↔ fieldN op = 0x0 := by
  unfold decodeGroup5
  split_ifs <;> simp_all

theorem decodeGroup8_ok_iff (op : Word) :
    (∃ i, decodeGroup8 op = .ok i) ↔ fieldN op ∈ [0x0, 0x1, 0x2, 0x3, 0x4, 0x5, 0x6, 0x7, 0xE] := by
  unfold decodeGroup8
  split_ifs <;> simp_all

theorem decodeGroup9_ok_iff (op : Word) : (∃ i, decodeGroup9 op = .ok i) ↔ fieldN op = 0x0 := by
  unfold decodeGroup9
  split_ifs <;> simp_all

theorem decodeGroupE_ok_iff (op : Word) : (∃ i, decodeGroupE op = .ok i) ↔ fieldNN op ∈ [0x9E, 0xA1] := by
  unfold decodeGroupE
  split_ifs <;> simp_all

theorem decodeGroupF_ok_iff (op : Word) :
    (∃ i, decodeGroupF op = .ok i) ↔ fieldNN op ∈ [0x07, 0x0A, 0x15, 0x18, 0x1E, 0x29, 0x33, 0x55, 0x65] := by
  unfold decodeGroupF
  split_ifs <;> simp_all

/-- The decoder accepts the words R75 gives a meaning: ten groups whole, and in the other six those with a listed
subcode. -/
theorem decode_ok_iff (op : Word) : (∃ i, decode op = .ok i) ↔ KnownWord op := by
  unfold KnownWord
  rcases group_cases (fieldGroup op) with
    hg | hg | hg | hg | hg | hg | hg | hg | hg | hg | hg | hg | hg | hg | hg | hg
  · rw [decode_group0 hg, decodeGroup0_ok_iff]; simp [hg]
  · simp [decode_group1 hg, hg]
  · simp [decode_group2 hg, hg]
  · simp [decode_group3 hg, hg]
  · simp [decode_group4 hg, hg]
  · rw [decode_group5 hg, decodeGroup5_ok_iff]; simp [hg]
  · simp [decode_group6 hg, hg]
  · simp [decode_group7 hg, hg]
  · rw [decode_group8 hg, decodeGroup8_ok_iff]; simp [hg]
  · rw [decode_group9 hg, decodeGroup9_ok_iff]; simp [hg]
  · simp [decode_groupA hg, hg]
  · simp [decode_groupB hg, hg]
  · simp [decode_groupC hg, hg]
  · simp [decode_groupD hg, hg]
  · rw [decode_groupE hg, decodeGroupE_ok_iff]; simp [hg]
  · rw [decode_groupF hg, decodeGroupF_ok_iff]; simp [hg]

/-! ### The words the opcode table accepts -/

/-- The word of every instruction matches a row of the opcode table. -/
theorem wordWellFormed_encode (i : Instr) : wordWellFormed (encode i) = true := by
  open Laws.Encoded in
  cases i
  exacts [cls, ret, jp _, call _, seImm _ _, sneImm _ _, seReg _ _, ldImm _ _, addImm _ _, ldReg _ _, orReg _ _,
    andReg _ _, xorReg _ _, addReg _ _, subReg _ _, shrReg _ _, subnReg _ _, shlReg _ _, sneReg _ _, ldI _, jpV0 _,
    rnd _ _, drw _ _ _, skp _, sknp _, ldVxDt _, ldVxK _, ldDtVx _, ldStVx _, addI _, ldF _, ldB _, storeRegs _,
    loadRegs _]

theorem rowMatches_iff (row : OpcodeRow) (op : Word) : rowMatches row op = true ↔ op &&& row.mask = row.value :=
  beq_iff_eq

/-- A field that a row's mask covers is the row's own in every word the row selects. -/
theorem extract_of_row {row : OpcodeRow} {op : Word} (h : rowMatches row op = true) {start len : Nat}
    (hm : row.mask.extractLsb' start len = BitVec.allOnes len) :
    op.extractLsb' start len = row.value.extractLsb' start len := by
  rw [← (rowMatches_iff row op).mp h, BitVec.extractLsb'_and, hm, BitVec.and_allOnes]

/-- Every row fixes its group and the field its group's subcode is read from. -/
theorem opcodeRows_fix_subcode : ∀ row ∈ opcodeRows,
    fieldGroup row.mask = 0xF ∧
    (fieldGroup row.value = 0x0 → row.mask = 0xFFFF) ∧
    (fieldGroup row.value ∈ [0x5, 0x8, 0x9] → fieldN row.mask = 0xF) ∧
    (fieldGroup row.value ∈ [0xE, 0xF] → fieldNN row.mask = 0xFF) := by decide

/-- Every row's group and subcode are ones that R75 gives a meaning. -/
theorem opcodeRows_known : ∀ row ∈ opcodeRows, KnownWord row.value := by
  unfold KnownWord
  decide

/-- A word that a row selects has the row's group and subcode, so R75 gives it a meaning. -/
theorem knownWord_of_row {row : OpcodeRow} {op : Word} (hrow : row ∈ opcodeRows) (h : rowMatches row op = true) :
    KnownWord op := by
  obtain ⟨hgroup, hword, hN, hNN⟩ := opcodeRows_fix_subcode row hrow
  obtain ⟨h0, h5, h8, h9, hE, hF⟩ := opcodeRows_known row hrow
  have hg : fieldGroup op = fieldGroup row.value := extract_of_row h hgroup
  have hn (hr : fieldGroup row.value ∈ [0x5, 0x8, 0x9]) : fieldN op = fieldN row.value := extract_of_row h (hN hr)
  have hnn (hr : fieldGroup row.value ∈ [0xE, 0xF]) : fieldNN op = fieldNN row.value := extract_of_row h (hNN hr)
  have hop (hr : fieldGroup row.value = 0x0) : op = row.value := by
    rw [← (rowMatches_iff row op).mp h, hword hr]
    exact (BitVec.and_allOnes (x := op)).symm
  rw [KnownWord, hg]
  exact ⟨fun hr => hop hr ▸ h0 hr, fun hr => (hn (by simp [hr])).trans (h5 hr),
    fun hr => hn (by simp [hr]) ▸ h8 hr, fun hr => (hn (by simp [hr])).trans (h9 hr),
    fun hr => hnn (by simp [hr]) ▸ hE hr, fun hr => hnn (by simp [hr]) ▸ hF hr⟩

/-- Settles O4: a word that decodes is an encoding, which some row selects; a word that a row selects has a meaning
in R75's map. -/
theorem decoderAgreesWithOpcodeTable : Obligations.DecoderAgreesWithOpcodeTable := by
  intro op
  constructor
  · rintro ⟨i, hi⟩
    exact encodeDecodeRoundTrip op i hi ▸ wordWellFormed_encode i
  · intro h
    obtain ⟨row, hrow, hmatch⟩ := List.any_eq_true.mp h
    exact (decode_ok_iff op).mpr (knownWord_of_row hrow hmatch)

/-- Two rows that select one word agree on every bit both fix. -/
theorem rows_agree_of_rowMatches {p q : OpcodeRow} {op : Word} (hp : rowMatches p op = true)
    (hq : rowMatches q op = true) : p.value &&& q.mask = q.value &&& p.mask := by
  rw [← (rowMatches_iff p op).mp hp, ← (rowMatches_iff q op).mp hq, BitVec.and_assoc, BitVec.and_assoc,
    BitVec.and_comm p.mask]

/-- Every two rows of the opcode table differ in a bit both fix. -/
theorem opcodeRows_pairwise_differ :
    opcodeRows.Pairwise fun p q => p.value &&& q.mask ≠ q.value &&& p.mask := by decide

/-- A word that a row selects is selected by no later row. -/
theorem not_rowMatches_of_lt {op : Word} {a b : Nat} {p q : OpcodeRow} (ha : opcodeRows[a]? = some p)
    (hb : opcodeRows[b]? = some q) (hlt : a < b) (hp : rowMatches p op = true) : ¬ rowMatches q op = true := by
  intro hq
  obtain ⟨hla, rfl⟩ := List.getElem?_eq_some_iff.mp ha
  obtain ⟨hlb, rfl⟩ := List.getElem?_eq_some_iff.mp hb
  exact List.pairwise_iff_getElem.mp opcodeRows_pairwise_differ a b hla hlb hlt (rows_agree_of_rowMatches hp hq)

/-- Settles O5: of two different rows one stands before the other, and they differ in a bit both fix. -/
theorem opcodeRowsDisjoint : Obligations.OpcodeRowsDisjoint := by
  intro op a b p q ha hb hp hq
  rcases Nat.lt_trichotomy a b with hlt | heq | hgt
  · exact absurd hq (not_rowMatches_of_lt ha hb hlt hp)
  · exact heq
  · exact absurd hp (not_rowMatches_of_lt hb ha hgt hq)

/-! ### The reserved words -/

theorem decode_error_iff (op : Word) : (∃ e, decode op = .error e) ↔ ¬ KnownWord op := by
  rw [← decode_ok_iff]
  cases decode op <;> simp

/-- The subcodes of group 8 that R141 reserves are those R75 does not list. -/
theorem group8_reserved (n : Nibble) :
    n ∉ [0x0, 0x1, 0x2, 0x3, 0x4, 0x5, 0x6, 0x7, 0xE] ↔ n ∈ [0x8, 0x9, 0xA, 0xB, 0xC, 0xD, 0xF] := by
  revert n; decide

/-- Settles O6: a word decodes to nothing when one of the six groups that read a subcode does not list its own. -/
theorem reservedWordsAreUnknown : Obligations.ReservedWordsAreUnknown := by
  intro op
  have h0 : op ∉ [0x00E0, 0x00EE] ↔ op ≠ 0x00E0 ∧ op ≠ 0x00EE := by simp
  rw [decode_error_iff, KnownWord]
  simp only [not_and_or, Classical.not_imp, group8_reserved, h0, ne_eq]

/-- Settles O1: the ten words are closed, so the decoder is run on them. -/
theorem knownWordsDecode : Obligations.KnownWordsDecode := by
  unfold Obligations.KnownWordsDecode
  decide

end Sys2Proof

namespace Sys2Proof.Machine

/-! ### The step around the decoder -/

/-- A queued `step` call of a ready core runs the fetched word with the call's input (R70, R184). -/
theorem step_queued_ready {s : State} {inp : Input} {rest : List HostOp} (hw : s.wait = none)
    (hp : s.pending = .step inp :: rest) : step s = runWord s.fetch ((s.setPending rest).setInput inp) :=
  (step_pending hp).trans (stepCall_ready inp hw)

/-- With no call queued a ready core runs the fetched word with a free input, which is counted (log entry 6). -/
theorem step_free_ready {s : State} (hw : s.wait = none) (hp : s.pending = []) :
    step s = runWord s.fetch (s.countInput.setInput s.freeInput) := by
  rw [step_free hp, stepFree_ready hw]
  exact stepCall_ready s.freeInput hw

/-- The report of an unknown word names the address it was fetched from, where the program counter stood (R76). -/
theorem reportUnknown_advancePc (s : State) (op : Word) :
    s.advancePc.reportUnknown op =
      { s with pc := s.pc + 2, reports := s.reports ++ [⟨.unknownInstruction, op, s.pc⟩] } := by
  rw [reportUnknown_eq, State.report, fetchPc_advancePc]
  rfl

end Sys2Proof.Machine

namespace Sys2Proof
open Machine

/-- Settles O7: the word is its two bytes combined, and an address is read mod 4096. -/
theorem fetchIsBigEndian : Obligations.FetchIsBigEndian := by
  intro s
  refine ⟨fetch_toNat s, fun a => (memRead_mod s a).symm, fun hpc => memRead_of_mod_eq s ?_⟩
  simp only [memorySize]
  omega

/-- Settles O8: either call of a ready core runs the fetched word, which decodes. -/
theorem stepRunsDecodedInstruction : Obligations.StepRunsDecodedInstruction := by
  intro s i hw hd
  exact ⟨fun inp rest hp => (step_queued_ready hw hp).trans (runWord_ok hd _),
    fun hp => (step_free_ready hw hp).trans (runWord_ok hd _)⟩

/-- Settles O9: either call of a ready core runs the fetched word, which is only reported. -/
theorem unknownWordIsReported : Obligations.UnknownWordIsReported := by
  intro s e hw hd
  refine ⟨fun inp rest hp => ?_, fun hp => ?_⟩
  · rw [step_queued_ready hw hp, runWord_unknown hd, reportUnknown_advancePc]
    rfl
  · rw [step_free_ready hw hp, runWord_unknown hd, reportUnknown_advancePc]
    rfl

/-- Settles O10: a waiting core answers either call with its own state. -/
theorem waitingStepDoesNothing : Obligations.WaitingStepDoesNothing := by
  intro s x hw
  exact ⟨fun inp rest hp => (step_pending hp).trans (stepCall_waiting inp hw),
    fun hp => (step_free hp).trans (stepFree_waiting hw)⟩

end Sys2Proof
end

section
/-! Display (40_display.md): what 00E0 and Dxyn leave of the display, of VF and of the rest. -/

namespace Sys2Proof.Machine

/-! ### What a sprite covers depends on -/

section
variable {s t : State}

/-- Drawing does not move the sprite's bytes, so from a fixed origin it covers the cells it covered before. -/
theorem DrawFrame.rowsCover_iff (h : DrawFrame s t) (ox oy k : Nat) (c : Fin 64) (r : Fin 32) :
    rowsCover t ox oy k c r ↔ rowsCover s ox oy k c r := by
  simp only [rowsCover, h.ea, h.memRead]

/-- The origin of a sprite placed by registers other than VF survives drawing. -/
theorem DrawFrame.spriteCovers_iff (h : DrawFrame s t) {x y : Reg} (hx : x ≠ vF) (hy : y ≠ vF) (n : Nibble)
    (c : Fin 64) (r : Fin 32) : spriteCovers t x y n c r ↔ spriteCovers s x y n c r := by
  rw [spriteCovers, h.regs x hx, h.regs y hy, h.rowsCover_iff, spriteCovers]

end

/-! ### The state Dxyn leaves -/

/-- The state after `Dxyn` (R101): VF cleared, then the rows drawn from the origin read before that. -/
def State.afterDraw (s : State) (x y : Reg) (n : Nibble) : State :=
  (s.setFlag (flagByte false)).drawRows ((s.readReg x).toNat % 64) ((s.readReg y).toNat % 32) n.toNat

theorem exec_drw (x y : Reg) (n : Nibble) (s : State) : exec (.drw x y n) s = .next (s.afterDraw x y n) := rfl

section
variable {s : State} {x y : Reg} {n : Nibble} {c : Fin 64} {r : Fin 32}

theorem afterDraw_frame (s : State) (x y : Reg) (n : Nibble) : DrawFrame s (s.afterDraw x y n) :=
  (drawFrame_setFlag s _).trans (drawRows_frame _ _ _ _)

/-- Clearing VF first does not change what the sprite, placed by the origin read before, covers. -/
theorem rowsCover_setFlag_iff : rowsCover (s.setFlag (flagByte false)) ((s.readReg x).toNat % 64)
    ((s.readReg y).toNat % 32) n.toNat c r ↔ spriteCovers s x y n c r :=
  (drawFrame_setFlag s _).rowsCover_iff _ _ _ c r

theorem afterDraw_cell_covered (h : spriteCovers s x y n c r) :
    (s.afterDraw x y n).disp.cell c r = !s.disp.cell c r :=
  (drawRows_cell _ _ _ (by omega) c r).1 (rowsCover_setFlag_iff.mpr h)

theorem afterDraw_cell_uncovered (h : ¬ spriteCovers s x y n c r) :
    (s.afterDraw x y n).disp.cell c r = s.disp.cell c r :=
  (drawRows_cell _ _ _ (by omega) c r).2 (rowsCover_setFlag_iff.not.mpr h)

theorem afterDraw_vF_collision (h : ∃ c r, spriteCovers s x y n c r ∧ s.disp.cell c r = true) :
    (s.afterDraw x y n).readReg vF = 1 := by
  obtain ⟨c, r, hcov, hon⟩ := h
  exact (drawRows_vF _ _ _ (by omega)).1 ⟨c, r, rowsCover_setFlag_iff.mpr hcov, hon⟩

theorem afterDraw_vF_clear (h : ¬ ∃ c r, spriteCovers s x y n c r ∧ s.disp.cell c r = true) :
    (s.afterDraw x y n).readReg vF = 0 := by
  have hkept := (drawRows_vF (s.setFlag (flagByte false)) _ _ (by omega)).2 fun ⟨c, r, hcov, hon⟩ =>
    h ⟨c, r, rowsCover_setFlag_iff.mp hcov, hon⟩
  exact hkept.trans (readReg_writeReg_same s vF _)

/-- VF tells a collision from none (R101). -/
theorem afterDraw_vF_eq_one_iff :
    (s.afterDraw x y n).readReg vF = 1 ↔ ∃ c r, spriteCovers s x y n c r ∧ s.disp.cell c r = true := by
  refine ⟨fun hone => ?_, afterDraw_vF_collision⟩
  by_contra hno
  exact absurd ((afterDraw_vF_clear hno).symm.trans hone) (by decide)

/-- The second draw covers the cells the first did: each is inverted twice, and no other is touched (R102). -/
theorem afterDraw_afterDraw_disp (hx : x ≠ vF) (hy : y ≠ vF) :
    ((s.afterDraw x y n).afterDraw x y n).disp = s.disp := by
  refine Display.ext_cell fun c r => ?_
  have hsame := (afterDraw_frame s x y n).spriteCovers_iff hx hy n c r
  by_cases hc : spriteCovers s x y n c r
  · rw [afterDraw_cell_covered (hsame.mpr hc), afterDraw_cell_covered hc, Bool.not_not]
  · rw [afterDraw_cell_uncovered (hsame.not.mpr hc), afterDraw_cell_uncovered hc]

end

end Sys2Proof.Machine

namespace Sys2Proof
open Machine

/-- Settles O37: Dxyn is VF cleared and the rows drawn; each covered cell is touched once, and VF is set on a hit. -/
theorem drawSprite : Obligations.DrawSprite := by
  refine ⟨fun _ => decode_groupD, fun s x y n => ⟨_, exec_drw x y n s, ?_⟩⟩
  have hframe := afterDraw_frame s x y n
  exact ⟨fun _ _ => afterDraw_cell_covered, fun _ _ => afterDraw_cell_uncovered, afterDraw_vF_collision,
    afterDraw_vF_clear, hframe.regs, hframe.rest, hframe.memRead⟩

/-- Settles O38: the origin and the sprite's bytes survive the first draw, so the second covers the same cells. -/
theorem drawTwiceRestores : Obligations.DrawTwiceRestores := by
  intro s x y n hx hy
  refine ⟨_, _, exec_drw x y n s, exec_drw x y n _, afterDraw_afterDraw_disp hx hy, ?_⟩
  have hsame := (afterDraw_frame s x y n).spriteCovers_iff hx hy n
  rw [afterDraw_vF_eq_one_iff]
  simp only [hsame]

/-- Settles O36: the one write of 00E0 is the cleared display. -/
theorem clearDisplay : Obligations.ClearDisplay :=
  ⟨by decide, fun _ => ⟨_, rfl, Display.cell_clear, rfl, fun _ => rfl, fun _ => rfl⟩⟩

end Sys2Proof
end

section
/-! Control transfer (41_flow.md): the jumps, the call and the return, and a return after a call. -/

namespace Sys2Proof.Machine

/-! ### Jumps -/

theorem pcFrame_setPc (s : State) (v : Word) : PcFrame s (s.setPc v) := ⟨readReg_setPc s v, rfl, memRead_setPc s v⟩

/-- The sum of a 12-bit address and a byte fits 16 bits, so it does not wrap (R113). -/
theorem zextAddr_add_zextByte_toNat (nnn : Addr) (v : Byte) :
    (zextAddr nnn + zextByte v).toNat = nnn.toNat + v.toNat := by
  rw [BitVec.toNat_add, zextAddr_toNat, zextByte_toNat]
  omega

/-! ### The call stack -/

section
variable {s : State} {v : Word} (h : s.sp.val < 16)

theorem push_stack_same : (s.push v h).stack[s.sp.val] = v := Vector.getElem_set_self h

theorem push_stack_other {k : Nat} (hk : k < 16) (hne : k ≠ s.sp.val) : (s.push v h).stack[k] = s.stack[k] :=
  Vector.getElem_set_ne h hk hne.symm

end

/-- 00EE by the depth it leaves: the entry at that depth is the return address (R110, D16). -/
theorem execRet_succ {s : State} {k : Nat} (hk : k < 16) (h : s.sp.val = k + 1) :
    execRet s = .next { s with sp := ⟨k, by omega⟩, pc := s.stack[k] } := by
  rw [execRet_held (by omega)]
  simp [State.pop, State.top, State.setPc, h]

end Sys2Proof.Machine

namespace Sys2Proof
open Machine

/-- Settles O16: the return pops the slot the call wrote, which holds the advanced PC. -/
theorem callThenReturnResumes : Obligations.CallThenReturnResumes := by
  intro s nnn h
  refine ⟨_, execCall_room nnn h, fun t' hsp hslot => ?_⟩
  have hdepth : t'.sp.val = s.sp.val + 1 := congrArg Fin.val hsp
  exact ⟨_, execRet_succ h hdepth, hslot.trans (push_stack_same h), rfl⟩

/-- Settles O12: the two paths of 00EE. -/
theorem retReturnsOrReports : Obligations.RetReturnsOrReports :=
  ⟨decode_group0 (by decide),
    fun _ _ hk hsp => ⟨_, execRet_succ hk hsp, rfl, rfl, rfl, fun _ => rfl, fun _ => rfl⟩,
    fun _ hsp => execRet_empty hsp⟩

/-- Settles O13: the one write of 1nnn is PC. -/
theorem jumpSetsPc : Obligations.JumpSetsPc :=
  ⟨fun _ => decode_group1, fun s nnn => ⟨_, rfl, zextAddr_toNat nnn, pcFrame_setPc s _⟩⟩

/-- Settles O14: the two paths of 2nnn. -/
theorem callPushesOrReports : Obligations.CallPushesOrReports := by
  refine ⟨fun _ => decode_group2, fun s nnn h => ⟨_, execCall_room nnn h, ?_⟩, fun _ nnn hsp => execCall_full nnn hsp⟩
  exact ⟨rfl, push_stack_same h, fun _ hk hne => push_stack_other h hk hne, zextAddr_toNat nnn, rfl,
    fun _ => rfl, fun _ => rfl⟩

/-- Settles O15: the one write of Bnnn is PC, and the sum does not wrap. -/
theorem jumpPlusV0SetsPc : Obligations.JumpPlusV0SetsPc :=
  ⟨fun _ => decode_groupB, fun s nnn => ⟨_, rfl, zextAddr_add_zextByte_toNat nnn _, pcFrame_setPc s _⟩⟩

end Sys2Proof
end

section
/-! Conditional skips (42_skip.md): where a skip leaves PC, and from it the skips on equal and on different values. -/

namespace Sys2Proof.Machine

/-! ### The skip (R120) -/

theorem pcFrame_skipIf (s : State) (c : Bool) : PcFrame s (s.skipIf c) := skipIf_eq s c ▸ pcFrame_setPc s _

theorem skipIf_pc_toNat (s : State) (c : Bool) :
    (s.skipIf c).pc.toNat = (s.pc.toNat + if c then 2 else 0) % 65536 := by
  rw [skipIf_eq, setPc_pc]
  cases c
  · exact (Nat.mod_eq_of_lt s.pc.isLt).symm
  · exact BitVec.toNat_add s.pc 2

theorem skipIf_beq_pc_toNat (s : State) (a b : Byte) :
    (s.skipIf (a == b)).pc.toNat = (s.pc.toNat + if a = b then 2 else 0) % 65536 := by
  simp only [skipIf_pc_toNat, beq_iff_eq]

theorem skipIf_bne_pc_toNat (s : State) (a b : Byte) :
    (s.skipIf (a != b)).pc.toNat = (s.pc.toNat + if a = b then 0 else 2) % 65536 := by
  simp only [skipIf_pc_toNat, bne_iff_ne, ne_eq, ite_not]

end Sys2Proof.Machine

namespace Sys2Proof
open Machine

/-- Settles O17: 3xnn and 4xnn are skips on one comparison and on its negation. -/
theorem skipOnImmediate : Obligations.SkipOnImmediate :=
  ⟨fun _ => decode_group3, fun _ => decode_group4, fun s x nn =>
    ⟨⟨_, rfl, pcFrame_skipIf s _, skipIf_beq_pc_toNat s (s.readReg x) nn⟩,
      ⟨_, rfl, pcFrame_skipIf s _, skipIf_bne_pc_toNat s (s.readReg x) nn⟩⟩⟩

/-- Settles O18: subcode 0 decides between the instruction and the unknown word, and 5xy0 and 9xy0 are skips on one
comparison and on its negation. -/
theorem skipOnRegisters : Obligations.SkipOnRegisters :=
  ⟨fun _ hg hn => (decode_group5 hg).trans (if_pos hn), fun _ hg hn => (decode_group5 hg).trans (if_neg hn),
    fun _ hg hn => (decode_group9 hg).trans (if_pos hn), fun _ hg hn => (decode_group9 hg).trans (if_neg hn),
    fun s x y =>
      ⟨⟨_, rfl, pcFrame_skipIf s _, skipIf_beq_pc_toNat s (s.readReg x) (s.readReg y)⟩,
        ⟨_, rfl, pcFrame_skipIf s _, skipIf_bne_pc_toNat s (s.readReg x) (s.readReg y)⟩⟩⟩

end Sys2Proof
end

section
/-! Register loads and arithmetic-logic instructions (43_alu.md): one write of register x, after a write of the flag to
VF or without one. -/

namespace Sys2Proof

/-- A word is decoded as the instruction it encodes, so a decoding is read off the fields (R75). -/
theorem decode_of_encode_eq {i : Instr} {op : Word} (h : encode i = op) : decode op = .ok i :=
  h ▸ decodeEncodeRoundTrip i

end Sys2Proof

namespace Sys2Proof.Machine

/-! ### One register written (R130 to R135, R148) -/

theorem regFrame_writeReg (s : State) (x : Reg) (v : Byte) : RegFrame s (s.writeReg x v) (· = x) :=
  ⟨fun _ hr => readReg_writeReg_other s v (Ne.symm hr), rfl, fun _ => rfl⟩

/-! ### The flags as numbers (R136, R137, R139) -/

theorem carryFlag_toNat (sum : Nat) : (carryFlag sum).toNat = if sum > 255 then 1 else 0 := by
  simp only [carryFlag, flagByte_toNat, decide_eq_true_eq]

theorem notBorrowFlag_toNat (a b : Byte) : (notBorrowFlag a b).toNat = if a.toNat ≥ b.toNat then 1 else 0 := by
  simp only [notBorrowFlag, flagByte_toNat, decide_eq_true_eq]

/-! ### The flag written, then register x (R136 to R140, D7) -/

section
variable (s : State) (flag v : Byte) {x : Reg}

/-- Reading a register that may be VF after the flag is written (D7). -/
theorem readReg_setFlag_toNat (r : Reg) :
    ((s.setFlag flag).readReg r).toNat = if r = vF then flag.toNat else (s.readReg r).toNat := by
  rw [setFlag_eq, readReg_writeReg]
  simp only [eq_comm (a := vF), apply_ite BitVec.toNat]

/-- The flag stays in VF unless the result overwrites it. -/
theorem setFlag_writeReg_vF (hx : x ≠ vF) : ((s.setFlag flag).writeReg x v).readReg vF = flag :=
  (readReg_writeReg_other (s.setFlag flag) v hx).trans (readReg_writeReg_same s vF flag)

theorem regFrame_setFlag_writeReg : RegFrame s ((s.setFlag flag).writeReg x v) (fun r => r = x ∨ r = vF) := by
  refine ⟨fun r hr => ?_, rfl, fun _ => rfl⟩
  obtain ⟨hx, hF⟩ := not_or.mp hr
  exact (readReg_writeReg_other (s.setFlag flag) v (Ne.symm hx)).trans (readReg_writeReg_other s flag (Ne.symm hF))

end

/-! ### Subtraction (R137, R139) -/

theorem byte_sub_toNat (a b : Byte) : (a - b).toNat = (a.toNat + 256 - b.toNat) % 256 := by
  rw [BitVec.toNat_sub]
  omega

/-- The state after register `b` is subtracted from register `a` into register `x`, the flag written first. -/
def State.afterSub (s : State) (x a b : Reg) : State :=
  let s1 := s.setFlag (notBorrowFlag (s.readReg a) (s.readReg b))
  s1.writeReg x (s1.readReg a - s1.readReg b)

theorem exec_subReg (x y : Reg) (s : State) : exec (.subReg x y) s = .next (s.afterSub x x y) := rfl

theorem exec_subnReg (x y : Reg) (s : State) : exec (.subnReg x y) s = .next (s.afterSub x y x) := rfl

section
variable (s : State) (x a b : Reg)

/-- The difference of the operands as the flag's write leaves them (D7). -/
theorem afterSub_toNat :
    ((s.afterSub x a b).readReg x).toNat =
      ((if a = vF then (if (s.readReg a).toNat ≥ (s.readReg b).toNat then 1 else 0) else (s.readReg a).toNat) + 256 -
        (if b = vF then (if (s.readReg a).toNat ≥ (s.readReg b).toNat then 1 else 0) else (s.readReg b).toNat)) %
        256 := by
  rw [State.afterSub, readReg_writeReg_same, byte_sub_toNat]
  simp only [readReg_setFlag_toNat, notBorrowFlag_toNat]

theorem afterSub_vF_toNat (hx : x ≠ vF) :
    ((s.afterSub x a b).readReg vF).toNat = if (s.readReg a).toNat ≥ (s.readReg b).toNat then 1 else 0 := by
  rw [State.afterSub, setFlag_writeReg_vF s _ _ hx, notBorrowFlag_toNat]

theorem afterSub_frame : RegFrame s (s.afterSub x a b) (fun r => r = x ∨ r = vF) :=
  regFrame_setFlag_writeReg s _ _

end

/-! ### Shifts by one (R138, R140) -/

theorem byte_shiftRight_one_toNat (v : Byte) : (v >>> 1).toNat = v.toNat / 2 := by
  rw [BitVec.toNat_ushiftRight, Nat.shiftRight_eq_div_pow, Nat.pow_one]

theorem byte_shiftLeft_one_toNat (v : Byte) : (v <<< 1).toNat = v.toNat * 2 % 256 := by
  rw [BitVec.toNat_shiftLeft, Nat.shiftLeft_eq, Nat.pow_one]

end Sys2Proof.Machine

namespace Sys2Proof
open Machine

/-- Settles O21: the carry is written before the sum, and both are of the old values. -/
theorem addWithCarry : Obligations.AddWithCarry := by
  refine ⟨fun _ hg hn => decode_of_encode_eq (encodeXYN_of_fields hg hn),
    fun s x y => ⟨_, rfl, ?sum, fun hx => ?carry, regFrame_setFlag_writeReg s _ _⟩⟩
  case sum => rw [readReg_writeReg_same, BitVec.toNat_ofNat]
  case carry => rw [setFlag_writeReg_vF s _ _ hx, carryFlag_toNat]

/-- Settles O22: register y is subtracted from register x. -/
theorem subtractWithNotBorrow : Obligations.SubtractWithNotBorrow :=
  ⟨fun _ hg hn => decode_of_encode_eq (encodeXYN_of_fields hg hn), fun s x y =>
    ⟨_, exec_subReg x y s, afterSub_toNat s x x y, afterSub_vF_toNat s x x y, afterSub_frame s x x y⟩⟩

/-- Settles O24: register x is subtracted from register y. -/
theorem reverseSubtractWithNotBorrow : Obligations.ReverseSubtractWithNotBorrow :=
  ⟨fun _ hg hn => decode_of_encode_eq (encodeXYN_of_fields hg hn), fun s x y =>
    ⟨_, exec_subnReg x y s, afterSub_toNat s x y x, afterSub_vF_toNat s x y x, afterSub_frame s x y x⟩⟩

/-- Settles O23: the value shifted is the old one, or for x = VF the bit just written, whose half is 0. -/
theorem shiftRightOut : Obligations.ShiftRightOut := by
  refine ⟨fun _ hg hn => decode_of_encode_eq (encodeXYN_of_fields hg hn),
    fun s x y => ⟨_, rfl, fun hx => ⟨?result, ?flag⟩, fun hx => ?overwritten, fun _ => rfl,
      regFrame_setFlag_writeReg s _ _⟩⟩
  case result => rw [readReg_writeReg_same, byte_shiftRight_one_toNat, readReg_setFlag_toNat, if_neg hx]
  case flag => rw [setFlag_writeReg_vF s _ _ hx, shiftRightFlag_toNat]
  case overwritten =>
    subst hx
    rw [readReg_writeReg_same, byte_shiftRight_one_toNat, readReg_setFlag_toNat, if_pos rfl, shiftRightFlag_toNat]
    omega

/-- Settles O25: the value shifted is the old one, or for x = VF the bit just written, whose double does not wrap. -/
theorem shiftLeftOut : Obligations.ShiftLeftOut := by
  refine ⟨fun _ hg hn => decode_of_encode_eq (encodeXYN_of_fields hg hn),
    fun s x y => ⟨_, rfl, fun hx => ⟨?result, ?flag⟩, fun hx => ?overwritten, fun _ => rfl,
      regFrame_setFlag_writeReg s _ _⟩⟩
  case result => rw [readReg_writeReg_same, byte_shiftLeft_one_toNat, readReg_setFlag_toNat, if_neg hx]
  case flag => rw [setFlag_writeReg_vF s _ _ hx, shiftLeftFlag_toNat]
  case overwritten =>
    subst hx
    rw [readReg_writeReg_same, byte_shiftLeft_one_toNat, readReg_setFlag_toNat, if_pos rfl, shiftLeftFlag_toNat]
    omega

/-- Settles O19: the one write is register x, by the immediate or by the wrapping sum. -/
theorem immediateLoadAndAdd : Obligations.ImmediateLoadAndAdd := by
  refine ⟨fun _ => decode_group6, fun _ => decode_group7, fun s x nn =>
    ⟨⟨_, rfl, readReg_writeReg_same s x nn, regFrame_writeReg s x nn⟩, ⟨_, rfl, ?_, regFrame_writeReg s x _⟩⟩⟩
  rw [readReg_writeReg_same, BitVec.toNat_add]

/-- Settles O20: the one write is register x, by the copy or by the bitwise operation. -/
theorem copyAndLogic : Obligations.CopyAndLogic := by
  refine ⟨fun _ hg hn => decode_of_encode_eq (encodeXYN_of_fields hg hn),
    fun _ hg hn => decode_of_encode_eq (encodeXYN_of_fields hg hn),
    fun _ hg hn => decode_of_encode_eq (encodeXYN_of_fields hg hn),
    fun _ hg hn => decode_of_encode_eq (encodeXYN_of_fields hg hn), fun s x y =>
      ⟨⟨_, rfl, regFrame_writeReg s x _, readReg_writeReg_same s x _⟩,
        ⟨_, rfl, regFrame_writeReg s x _, fun k => ?or⟩, ⟨_, rfl, regFrame_writeReg s x _, fun k => ?and⟩,
        ⟨_, rfl, regFrame_writeReg s x _, fun k => ?xor⟩⟩⟩
  case or => rw [readReg_writeReg_same, BitVec.getLsbD_or]
  case and => rw [readReg_writeReg_same, BitVec.getLsbD_and]
  case xor => rw [readReg_writeReg_same, BitVec.getLsbD_xor]

/-- Settles O26: the one write is register x, by the masked draw. -/
theorem randomByteMasked : Obligations.RandomByteMasked := by
  refine ⟨fun _ => decode_groupC, fun s x nn => ⟨_, rfl, regFrame_writeReg s x _, fun k => ?_⟩⟩
  rw [readReg_writeReg_same, BitVec.getLsbD_and, State.drawByte]

end Sys2Proof
end

section
/-! Address register and memory (44_index_memory.md): the three writers of I, the digits of Fx33, the block transfers
Fx55 and Fx65, and a block load after a block store. -/

namespace Sys2Proof.Machine

/-! ### I written (R150 to R152) -/

theorem iFrame_setI (s : State) (v : Word) : IFrame s (s.setI v) := ⟨readReg_setI s v, rfl, memRead_setI s v⟩

theorem word_add_zextByte_toNat (a : Word) (v : Byte) : (a + zextByte v).toNat = (a.toNat + v.toNat) % 65536 := by
  rw [BitVec.toNat_add, zextByte_toNat]

/-- Five times a byte fits 16 bits, so the glyph address does not wrap (R152). -/
theorem ofNat_mul_five_toNat (v : Byte) : (BitVec.ofNat 16 (v.toNat * 5)).toNat = v.toNat * 5 :=
  Nat.mod_eq_of_lt (by omega)

/-! ### Bytes written one after another (R52) -/

section
variable {s t : State} {stored : Nat → Prop}

theorem MemFrame.refl (s : State) (stored : Nat → Prop) : MemFrame s s stored := ⟨fun _ => rfl, rfl, fun _ _ => rfl⟩

/-- One more write at an allowed address stays within the frame. -/
theorem MemFrame.memWrite (h : MemFrame s t stored) {a : Nat} (ha : stored (a % memorySize)) (v : Byte) :
    MemFrame s (t.memWrite a v) stored := by
  obtain ⟨hregs, hrest, hbytes⟩ := h
  refine ⟨hregs, ?rest, fun b hb => ?bytes⟩
  case rest => rw [hrest]; rfl
  case bytes =>
    have hne : a % memorySize ≠ b % memorySize := fun e => hb (e ▸ ha)
    rw [memRead_memWrite, if_neg hne, hbytes b hb]

end

theorem memRead_memWrite_same (s : State) (a : Nat) (v : Byte) : (s.memWrite a v).memRead a = v :=
  (memRead_memWrite s a a v).trans (if_pos rfl)

/-- A write at one effective address is not seen at another (R51). -/
theorem memRead_memWrite_ea_ne (s t : State) {j k : Nat} (hj : j < memorySize) (hk : k < memorySize) (hne : j ≠ k)
    (v : Byte) : (t.memWrite (s.ea j) v).memRead (s.ea k) = t.memRead (s.ea k) := by
  rw [memRead_memWrite, ea_mod, ea_mod, if_neg fun e => hne (ea_inj s hj hk e)]

/-! ### Three bytes stored at I (R153) -/

/-- A number below 256 fits a byte. -/
theorem byte_ofNat_toNat {n : Nat} (h : n < 256) : (BitVec.ofNat 8 n).toNat = n := Nat.mod_eq_of_lt h

/-- The state after three bytes are stored at I, I + 1 and I + 2, in that order. -/
def State.storeThree (s : State) (v₀ v₁ v₂ : Byte) : State :=
  ((s.memWrite (s.ea 0) v₀).memWrite (s.ea 1) v₁).memWrite (s.ea 2) v₂

theorem exec_ldB (x : Reg) (s : State) :
    exec (.ldB x) s = .next (s.storeThree (BitVec.ofNat 8 ((s.readReg x).toNat / 100))
      (BitVec.ofNat 8 ((s.readReg x).toNat / 10 % 10)) (BitVec.ofNat 8 ((s.readReg x).toNat % 10))) := rfl

section
variable (s : State) (v₀ v₁ v₂ : Byte)

theorem storeThree_first : (s.storeThree v₀ v₁ v₂).memRead (s.ea 0) = v₀ := by
  rw [State.storeThree, memRead_memWrite_ea_ne s _ (by decide) (by decide) (by decide),
    memRead_memWrite_ea_ne s _ (by decide) (by decide) (by decide), memRead_memWrite_same]

theorem storeThree_second : (s.storeThree v₀ v₁ v₂).memRead (s.ea 1) = v₁ := by
  rw [State.storeThree, memRead_memWrite_ea_ne s _ (by decide) (by decide) (by decide), memRead_memWrite_same]

theorem storeThree_third : (s.storeThree v₀ v₁ v₂).memRead (s.ea 2) = v₂ := memRead_memWrite_same _ _ _

theorem storeThree_frame :
    MemFrame s (s.storeThree v₀ v₁ v₂) (fun a => a = s.ea 0 ∨ a = s.ea 1 ∨ a = s.ea 2) := by
  have hfirst := (MemFrame.refl s (fun a => a = s.ea 0 ∨ a = s.ea 1 ∨ a = s.ea 2)).memWrite (.inl (ea_mod s 0)) v₀
  have hsecond := hfirst.memWrite (.inr (.inl (ea_mod s 1))) v₁
  exact hsecond.memWrite (.inr (.inr (ea_mod s 2))) v₂

end

/-! ### The block transfers up to register x (R154 to R156) -/

section
variable {s u : State} {x r : Reg}

/-- Effective addresses depend on nothing but I (R51). -/
theorem ea_congr (h : u.i = s.i) (k : Nat) : u.ea k = s.ea k := by
  simp only [State.ea, h]

theorem storeFirst_frame (s : State) (x : Reg) :
    MemFrame s (s.storeFirst (x.val + 1)) (fun a => ∃ r : Reg, r ≤ x ∧ a = s.ea r.val) := by
  refine ⟨storeFirst_readReg s _, storeFirst_eq s _, fun a ha => storeFirst_other s fun j hj hmeet => ?_⟩
  exact ha ⟨⟨j, by omega⟩, Nat.le_of_lt_succ hj, hmeet.symm⟩

theorem storeFirst_memRead_ea (hr : r ≤ x) : (s.storeFirst (x.val + 1)).memRead (s.ea r.val) = s.readReg r :=
  storeFirst_memRead hr (ea_mod s r.val)

theorem loadFirst_readReg_le (hr : r ≤ x) : (s.loadFirst (x.val + 1)).readReg r = s.memRead (s.ea r.val) :=
  (loadFirst_readReg s x.isLt r).trans (if_pos (Nat.lt_succ_of_le hr))

theorem loadFirst_frame (s : State) (x : Reg) : RegFrame s (s.loadFirst (x.val + 1)) (· ≤ x) :=
  ⟨fun r hr => (loadFirst_readReg s x.isLt r).trans (if_neg fun hlt => hr (Nat.le_of_lt_succ hlt)),
    loadFirst_eq s _, loadFirst_memRead s _⟩

end

end Sys2Proof.Machine

namespace Sys2Proof
open Machine

/-- Settles O29: the block store hits EA(I, r) for each r up to x, and no other byte. -/
theorem registersStored : Obligations.RegistersStored :=
  ⟨fun _ hg hnn => decode_of_encode_eq (encodeXNN_of_fields hg hnn),
    fun s x => ⟨_, rfl, fun _ => storeFirst_memRead_ea, storeFirst_frame s x⟩⟩

/-- Settles O30: the block load reads EA(I, r) for each r up to x, and writes no other register. -/
theorem registersLoaded : Obligations.RegistersLoaded :=
  ⟨fun _ hg hnn => decode_of_encode_eq (encodeXNN_of_fields hg hnn),
    fun s x => ⟨_, rfl, fun _ => loadFirst_readReg_le, loadFirst_frame s x⟩⟩

/-- Settles O31: with the same I the load reads where the store wrote. -/
theorem storeThenLoadRestores : Obligations.StoreThenLoadRestores := by
  refine fun s x => ⟨_, rfl, fun u hi hkept => ⟨_, rfl, fun r hr => ?_⟩⟩
  calc (u.loadFirst (x.val + 1)).readReg r
      = u.memRead (u.ea r.val) := loadFirst_readReg_le hr
    _ = u.memRead ((s.storeFirst (x.val + 1)).ea r.val) := by rw [ea_congr hi]
    _ = (s.storeFirst (x.val + 1)).memRead (s.ea r.val) := by rw [hkept r hr, storeFirst_ea]
    _ = s.readReg r := storeFirst_memRead_ea hr

/-- Settles O27: the one write of each is I, and only the sum of Fx1E can wrap. -/
theorem addressRegisterWrites : Obligations.AddressRegisterWrites :=
  ⟨fun _ => decode_groupA, fun _ hg hnn => decode_of_encode_eq (encodeXNN_of_fields hg hnn),
    fun _ hg hnn => decode_of_encode_eq (encodeXNN_of_fields hg hnn), fun s _ nnn =>
      ⟨⟨_, rfl, zextAddr_toNat nnn, iFrame_setI s _⟩, ⟨_, rfl, word_add_zextByte_toNat s.i _, iFrame_setI s _⟩,
        ⟨_, rfl, ofNat_mul_five_toNat _, iFrame_setI s _⟩⟩⟩

/-- Settles O28: three bytes are stored at distinct addresses, and each digit fits its byte. -/
theorem decimalDigitsStored : Obligations.DecimalDigitsStored := by
  refine ⟨fun _ hg hnn => decode_of_encode_eq (encodeXNN_of_fields hg hnn), fun _ _ => rfl, fun s x =>
    ⟨_, exec_ldB x s, ?hundreds, ?tens, ?units, storeThree_frame s _ _ _⟩⟩
  case hundreds => rw [storeThree_first, byte_ofNat_toNat (by omega)]
  case tens => rw [storeThree_second, byte_ofNat_toNat (by omega)]
  case units => rw [storeThree_third, byte_ofNat_toNat (by omega)]

end Sys2Proof
end

section
/-! Keys and timers (45_input_timers.md): the key a register value names, the timer transfers, and the two transitions
of the key wait. -/

namespace Sys2Proof.Machine

/-! ### The key a register value names (R166) -/

/-- Under either mode the test answers what the host's snapshot says of the key the value names, and `false` where it
names none. -/
theorem keyPressed_eq_of_named {s : State} {v : Byte} {pressed : Bool}
    (h : s.config.keyIndexMode = .mask ∧ (∃ k : Key, k.val = v.toNat % 16 ∧ pressed = s.input.keys[k]) ∨
      s.config.keyIndexMode = .invalidNotPressed ∧
        ((∃ k : Key, k.val = v.toNat ∧ pressed = s.input.keys[k]) ∨ 15 < v.toNat ∧ pressed = false)) :
    s.keyPressed v = pressed := by
  rcases h with ⟨hmode, k, hk, rfl⟩ | ⟨hmode, ⟨k, hk, rfl⟩ | ⟨hv, rfl⟩⟩
  · exact keyPressed_mask hmode hk
  · exact keyPressed_valid hmode hk
  · exact keyPressed_invalid hmode hv

/-- A skip on the negation of a condition (R120). -/
theorem skipIf_not_pc_toNat (s : State) (c : Bool) :
    (s.skipIf (!c)).pc.toNat = (s.pc.toNat + if c then 0 else 2) % 65536 := by
  rw [skipIf_pc_toNat]
  cases c <;> rfl

/-! ### The key wait (R163) -/

/-- A key delivered to a waiting core is stored in the register that waits, and the wait is over. -/
theorem step_resume_waiting {s : State} {x : Reg} {k : Key} {rest : List HostOp} (hw : s.wait = some x)
    (hp : s.pending = .resumeWithKey k :: rest) :
    step s = .next (((s.setPending rest).setWait none).writeReg x (BitVec.ofNat 8 k.val)) :=
  (step_pending hp).trans (congrArg Host.Outcome.next (resumeWithKey_waiting k hw))

end Sys2Proof.Machine

namespace Sys2Proof
open Machine

/-- Settles O33: both are skips on the key test, Ex9E on its answer and ExA1 on the negation. -/
theorem skipOnKey : Obligations.SkipOnKey := by
  refine ⟨fun _ hg hnn => decode_of_encode_eq (encodeXNN_of_fields hg hnn),
    fun _ hg hnn => decode_of_encode_eq (encodeXNN_of_fields hg hnn), fun s x pressed hnamed => ?_⟩
  obtain rfl := keyPressed_eq_of_named hnamed
  exact ⟨⟨_, rfl, pcFrame_skipIf s _, skipIf_pc_toNat s _⟩, ⟨_, rfl, pcFrame_skipIf s _, skipIf_not_pc_toNat s _⟩⟩

/-- Settles O34: the one write is register x, DT or ST. -/
theorem timerTransfers : Obligations.TimerTransfers :=
  ⟨fun _ hg hnn => decode_of_encode_eq (encodeXNN_of_fields hg hnn),
    fun _ hg hnn => decode_of_encode_eq (encodeXNN_of_fields hg hnn),
    fun _ hg hnn => decode_of_encode_eq (encodeXNN_of_fields hg hnn), fun s x =>
      ⟨⟨_, rfl, readReg_writeReg_same s x s.dt, regFrame_writeReg s x s.dt⟩,
        ⟨_, rfl, setDt_dt s _, rfl, readReg_setDt s _, memRead_setDt s _⟩,
        ⟨_, rfl, setSt_st s _, rfl, readReg_setSt s _, memRead_setSt s _⟩⟩⟩

/-- Settles O35: the issue writes only the wait, a waiting step only takes the call from the queue, and the delivery
writes register x and the wait; a key number fits the register. -/
theorem keyWaitIssuesAndCompletes : Obligations.KeyWaitIssuesAndCompletes := by
  refine ⟨fun _ hg hnn => decode_of_encode_eq (encodeXNN_of_fields hg hnn), fun _ _ => rfl, fun s x rest hw =>
    ⟨fun inp => (waitingStepDoesNothing s x hw).1 inp rest, fun k hp =>
      ⟨_, step_resume_waiting hw hp, ?stored, rfl, regFrame_writeReg _ x _⟩⟩⟩
  case stored => rw [readReg_writeReg_same, byte_ofNat_toNat (by omega)]

end Sys2Proof
end

section
/-! Condition reports and the host's calls (60_exceptions.md): every step completes, a report comes alone, and what a
tick, a query and a call to a waiting core do. -/

namespace Sys2Proof.Machine

/-! ### Every step completes (R170) -/

/-- Every instruction has a meaning, and it answers a next state. -/
theorem exec_total (i : Instr) (s : State) : ∃ t, exec i s = .next t := by
  cases i <;> exact ⟨_, rfl⟩

/-- A word is executed or only reported, and either completes (R76). -/
theorem runWord_total (op : Word) (s : State) : ∃ t, runWord op s = .next t := by
  cases hd : decode op with
  | ok i => exact runWord_ok hd s ▸ exec_total i s.advancePc
  | error e => exact ⟨_, runWord_unknown hd s⟩

theorem stepCall_total (inp : Input) (s : State) : ∃ t, stepCall inp s = .next t := by
  cases hw : s.wait with
  | some x => exact ⟨s, stepCall_waiting inp hw⟩
  | none => exact stepCall_ready inp hw ▸ runWord_total s.fetch (s.setInput inp)

/-- Of the host's calls only `step` runs an instruction; the others answer a next state by definition (R183). -/
theorem perform_total (op : HostOp) (s : State) : ∃ t, perform op s = .next t := by
  cases op
  case step inp => exact stepCall_total inp s
  all_goals exact ⟨_, rfl⟩

/-! ### A report comes alone (R171, R172) -/

/-- An instruction leaves the reports as they were, or reports its own word and does nothing else (R110, R112). -/
theorem exec_reports {i : Instr} {s t : State} (h : exec i s = .next t) :
    t.reports = s.reports ∨ ∃ kind, t = s.report kind (encode i) := by
  cases i
  case ret =>
    rcases Nat.eq_zero_or_pos s.sp.val with hsp | hsp
    · exact .inr ⟨_, next_inj (h.symm.trans (execRet_empty hsp))⟩
    · obtain rfl := next_inj ((execRet_held hsp).symm.trans h)
      exact .inl rfl
  case call nnn =>
    rcases Nat.lt_or_ge s.sp.val 16 with hsp | hsp
    · obtain rfl := next_inj ((execCall_room nnn hsp).symm.trans h)
      exact .inl rfl
    · exact .inr ⟨_, next_inj (h.symm.trans (execCall_full nnn (by omega)))⟩
  all_goals
    obtain ⟨-, -, hrep⟩ := (exec_effect h).stack_kept id
    exact .inl hrep

/-- Running a word leaves the reports as they were, or passes over the word and reports it. -/
theorem runWord_reports {op : Word} {s t : State} (h : runWord op s = .next t) :
    t.reports = s.reports ∨ ∃ kind, t = s.advancePc.report kind op := by
  cases hd : decode op with
  | ok i => exact encodeDecodeRoundTrip op i hd ▸ exec_reports ((runWord_ok hd s).symm.trans h)
  | error e => exact .inr ⟨_, next_inj (h.symm.trans (runWord_unknown hd s))⟩

/-- From `s` to `t` a ready core passed over the fetched word and reported it, and nothing else of the core's state
changed. -/
structure OnlyReports (s t : State) : Prop where
  ready : s.wait = none
  log   : ∃ kind, t.reports = s.reports ++ [⟨kind, s.fetch, s.pc⟩]
  rest  : t = { s with pc := s.pc + 2, reports := t.reports, input := t.input, pending := t.pending,
                       inputsTaken := t.inputsTaken }

/-- `OnlyReports` does not read the host's fields (log entries 5 and 6). -/
theorem OnlyReports.of_hostFields {s t : State} {inp : Input} {ops : List HostOp} {n : Nat}
    (h : OnlyReports { s with input := inp, pending := ops, inputsTaken := n } t) : OnlyReports s t :=
  ⟨h.ready, h.log, h.rest⟩

/-- A ready core that runs the fetched word leaves the reports as they were or only reports that word. -/
theorem runFetched_reports {s t : State} (hw : s.wait = none) (h : runWord s.fetch s = .next t) :
    t.reports = s.reports ∨ OnlyReports s t := by
  rcases runWord_reports h with hrep | ⟨kind, rfl⟩
  · exact .inl hrep
  · refine .inr ⟨hw, ⟨kind, ?_⟩, rfl⟩
    rw [report_reports, fetchPc_advancePc]
    rfl

theorem stepCall_reports {inp : Input} {s t : State} (h : stepCall inp s = .next t) :
    t.reports = s.reports ∨ OnlyReports s t := by
  cases hw : s.wait with
  | some x =>
    obtain rfl := next_inj ((stepCall_waiting inp hw).symm.trans h)
    exact .inl rfl
  | none =>
    exact (runFetched_reports (s := s.setInput inp) hw ((stepCall_ready inp hw).symm.trans h)).imp_right
      OnlyReports.of_hostFields

/-- `load_program` changes nothing but memory, whether the program fits or not (R194). -/
theorem loadProgram_rest (bytes : List Byte) (start : Word) (s : State) :
    s.loadProgram bytes start = { s with mem := (s.loadProgram bytes start).mem } := by
  rcases Nat.lt_or_ge 4096 (start.toNat + bytes.length) with hlen | hlen
  · rw [loadProgram_fails hlen]
  · rw [loadProgram_fits hlen]

theorem resumeWithKey_reports (k : Key) (s : State) : (s.resumeWithKey k).reports = s.reports := by
  cases hw : s.wait with
  | some x => rw [resumeWithKey_waiting k hw]; rfl
  | none => rw [resumeWithKey_ready k hw]

/-- No call but `step` reports; `initialize` keeps the report output (R171, D20). -/
theorem perform_reports {op : HostOp} {s t : State} (h : perform op s = .next t) :
    t.reports = s.reports ∨ OnlyReports s t := by
  cases op
  case step inp => exact stepCall_reports h
  all_goals
    obtain rfl := next_inj h
    left
  case loadProgram bytes start => rw [loadProgram_rest]
  case resumeWithKey k => exact resumeWithKey_reports k s
  all_goals rfl

/-- A step leaves the reports as they were, or only reports the fetched word. -/
theorem step_reports {s t : State} (h : step s = .next t) : t.reports = s.reports ∨ OnlyReports s t := by
  rcases step_cases s with ⟨op, rest, -, hs⟩ | ⟨-, -, hs⟩ | ⟨-, hw, hs⟩
  · exact (perform_reports (hs.symm.trans h)).imp_right OnlyReports.of_hostFields
  · obtain rfl := next_inj (hs.symm.trans h)
    exact .inl rfl
  · exact (runFetched_reports (s := s.countInput.setInput s.freeInput) hw (hs.symm.trans h)).imp_right
      OnlyReports.of_hostFields

/-! ### A call to a waiting core (R189) -/

/-- What a call that neither delivers a key nor initializes leaves of a waiting core: all but the timers, which only a
tick changes, and memory, which only a program load changes. -/
theorem perform_waiting {op : HostOp} {s t : State} {x : Reg} (hw : s.wait = some x) (h : perform op s = .next t)
    (hkey : ∀ k, op ≠ .resumeWithKey k) (hinit : ∀ start, op ≠ .init start) :
    t = { s with dt := t.dt, st := t.st, mem := t.mem } ∧
    (op ≠ .tickTimers → t.dt = s.dt ∧ t.st = s.st) ∧
    ((∀ bytes start, op ≠ .loadProgram bytes start) → t.mem = s.mem) := by
  cases op
  case init start => exact absurd rfl (hinit start)
  case resumeWithKey k => exact absurd rfl (hkey k)
  case step inp =>
    obtain rfl := next_inj ((stepCall_waiting inp hw).symm.trans h)
    exact ⟨rfl, fun _ => ⟨rfl, rfl⟩, fun _ => rfl⟩
  all_goals obtain rfl := next_inj h
  case loadProgram bytes start =>
    rw [loadProgram_rest]
    exact ⟨rfl, fun _ => ⟨rfl, rfl⟩, fun hload => absurd rfl (hload bytes start)⟩
  case tickTimers => exact ⟨rfl, fun htick => absurd rfl htick, fun _ => rfl⟩
  case readDisplay | isAwaitingKey => exact ⟨rfl, fun _ => ⟨rfl, rfl⟩, fun _ => rfl⟩

/-! ### Queries (R183) -/

theorem isAwaitingKey_eq (s : State) : s.isAwaitingKey = decide (s.wait ≠ none) := by
  rw [State.isAwaitingKey]
  cases s.wait <;> rfl

end Sys2Proof.Machine

namespace Sys2Proof
open Machine

/-- Settles O11: each of the three calls a step can be completes. -/
theorem everyStepCompletes : Obligations.EveryStepCompletes := by
  intro s
  rcases step_cases s with ⟨op, rest, -, hs⟩ | ⟨-, -, hs⟩ | ⟨-, -, hs⟩
  · exact hs ▸ perform_total op _
  · exact ⟨s, hs⟩
  · exact hs ▸ runWord_total s.fetch _

/-- Settles O47: a report names the fetched word because decoding drops no bit of it. -/
theorem atMostOneReport : Obligations.AtMostOneReport :=
  fun _ _ h => (step_reports h).imp_right OnlyReports.log

/-- Settles O48: a step that changes the reports is one that only reports. -/
theorem reportIsPrecise : Obligations.ReportIsPrecise := by
  intro s t h hne
  obtain ⟨hready, -, hrest⟩ := (step_reports h).resolve_left hne
  exact ⟨hready, hrest⟩

/-- Settles O55: the call is not a key or `initialize`, so it leaves the core waiting; the queue loses its head. -/
theorem waitEndsOnlyByHost : Obligations.WaitEndsOnlyByHost := by
  intro s t x hw h hkey hinit
  rcases step_cases s with ⟨op, rest, hp, hs⟩ | ⟨-, -, hs⟩ | ⟨-, hready, -⟩
  · obtain ⟨hrest, htimers, hmem⟩ := perform_waiting (s := s.setPending rest) hw (hs.symm.trans h)
      (fun k e => hkey k rest (e ▸ hp)) (fun start e => hinit start rest (e ▸ hp))
    refine ⟨?_, fun htick => htimers fun e => htick rest (e ▸ hp),
      fun hload => hmem fun bytes start e => hload bytes start rest (e ▸ hp)⟩
    rw [hrest]
    rfl
  · obtain rfl := next_inj (hs.symm.trans h)
    exact ⟨rfl, fun _ => ⟨rfl, rfl⟩, fun _ => rfl⟩
  · exact absurd (hw.symm.trans hready) (Option.some_ne_none x)

/-- Settles O39: the tick writes the two timers, each counted down. -/
theorem tickCountsDown : Obligations.TickCountsDown := by
  intro s rest hp
  exact ⟨_, step_pending hp, countDown_toNat s.dt, countDown_toNat s.st, rfl, fun _ => rfl⟩

/-- Settles O42: a query's next state is the state itself, and so is that of a key to a ready core. -/
theorem hostQueriesChangeNothing : Obligations.HostQueriesChangeNothing := by
  intro s op rest hp
  refine ⟨?_, ?_, ?_⟩
  · rintro rfl
    exact ⟨rfl, step_pending hp⟩
  · rintro rfl
    exact ⟨congrArg HostReply.awaiting (isAwaitingKey_eq s), step_pending hp⟩
  · rintro k rfl hw
    exact (step_pending hp).trans (congrArg Host.Outcome.next (resumeWithKey_ready (s := s.setPending rest) k hw))

end Sys2Proof
end

section
/-! Initialisation and the program load (70_reset_and_hazards.md): what the two host operations leave in the state, and
that reset is one of the states `initialize` leaves. -/

namespace Sys2Proof.Machine

/-- An address of memory is its own remainder (R52). -/
theorem memRead_of_lt (s : State) {a : Nat} (ha : a < 4096) : s.memRead a = Memory.read s.mem a :=
  congrArg (Memory.read s.mem) (Nat.mod_eq_of_lt ha)

/-! ### What `initialize` leaves (R190) -/

variable (start : Word) (s : State)

theorem initCore_readReg (r : Reg) : (s.initCore start).readReg r = 0 := by
  simp [State.initCore, State.readReg]

theorem initCore_stack {k : Nat} (hk : k < 16) : (s.initCore start).stack[k] = 0 := by
  simp [State.initCore]

theorem initCore_memRead_glyph {a : Nat} (ha : a < 80) :
    (s.initCore start).memRead a = s.config.glyphTable[a] := by
  rw [memRead_of_lt _ (by omega)]
  exact (initial_read _ a).trans (dif_pos ha)

theorem initCore_memRead_high {a : Nat} (hlow : 80 ≤ a) (ha : a < 4096) : (s.initCore start).memRead a = 0 := by
  calc (s.initCore start).memRead a
      = Memory.read (Memory.initial s.config.glyphTable) a := memRead_of_lt _ ha
    _ = Memory.resetByte a := (initial_read _ a).trans (dif_neg hlow.not_gt)
    _ = 0 := resetByte_high hlow

/-! ### What a program load leaves in memory (R194) -/

variable {start s} {bytes : List Byte}

/-- What each address reads as after a load that fits. -/
theorem loadProgram_memRead (h : start.toNat + bytes.length ≤ 4096) {a : Nat} (ha : a < 4096) :
    (s.loadProgram bytes start).memRead a =
      if hin : start.toNat ≤ a ∧ a < start.toNat + bytes.length then bytes[a - start.toNat]'(by omega)
      else s.memRead a := by
  rw [memRead_of_lt _ ha, memRead_of_lt _ ha, loadProgram_fits h]
  exact Memory.read_writeBytes bytes s.mem start.toNat a

theorem loadProgram_memRead_loaded (h : start.toNat + bytes.length ≤ 4096) {j : Nat} (hj : j < bytes.length) :
    (s.loadProgram bytes start).memRead (start.toNat + j) = bytes[j] := by
  rw [loadProgram_memRead h (by omega), dif_pos (by omega)]
  simp only [Nat.add_sub_cancel_left]

theorem loadProgram_memRead_outside (h : start.toNat + bytes.length ≤ 4096) {a : Nat} (ha : a < 4096)
    (hout : a < start.toNat ∨ start.toNat + bytes.length ≤ a) :
    (s.loadProgram bytes start).memRead a = s.memRead a := by
  rw [loadProgram_memRead h ha, dif_neg (by omega)]

/-- The answer is whether the program fits, on unbounded integers (D19). -/
theorem hostReply_loadProgram : hostReply (.loadProgram bytes start) s =
    .loaded (decide (start.toNat + bytes.length ≤ 4096)) := rfl

/-! ### A canonical memory is determined by its reads (log entry 1) -/

/-- Where addresses rise no two cells share one, so every listed cell is the one read at its address. -/
theorem Memory.read_of_mem {m : Memory} (h : m.Pairwise fun c d => c.1 < d.1) {c : Host.Cell} (hc : c ∈ m) :
    Memory.read m c.1 = c.2 := by
  induction m with
  | nil => cases hc
  | cons d m ih =>
    obtain ⟨hhead, htail⟩ := List.pairwise_cons.mp h
    rcases List.mem_cons.mp hc with rfl | hc
    · exact if_pos rfl
    · exact (if_neg (hhead c hc).ne).trans (ih htail hc)

/-- A canonical memory lists exactly the cells that are read and differ from the unlisted byte. -/
theorem Memory.mem_iff_read {m : Memory} (h : Memory.wf m = true) (c : Host.Cell) :
    c ∈ m ↔ Memory.read m c.1 = c.2 ∧ c.2 ≠ Memory.resetByte c.1 := by
  obtain ⟨hok, hrise⟩ := (Memory.wf_iff m).mp h
  constructor
  · intro hc
    have hlisted := hok c hc
    simp only [Memory.cellOk, Bool.and_eq_true, bne_iff_ne] at hlisted
    exact ⟨Memory.read_of_mem hrise hc, hlisted.2⟩
  · rintro ⟨hread, hne⟩
    by_contra hc
    have hunlisted : ∀ d ∈ m, d.1 ≠ c.1 := by
      intro d hd haddr
      have hbyte : d.2 = c.2 := by rw [← Memory.read_of_mem hrise hd, haddr, hread]
      exact hc (Prod.ext haddr hbyte ▸ hd)
    exact hne (hread.symm.trans (Memory.read_of_not_mem hunlisted))

/-- Memories with rising addresses and the same cells are equal. -/
theorem Memory.eq_of_mem_iff {m m' : Memory} (h : m.Pairwise fun c d => c.1 < d.1)
    (h' : m'.Pairwise fun c d => c.1 < d.1) (hcells : ∀ c, c ∈ m ↔ c ∈ m') : m = m' := by
  have hne : ∀ {c d : Host.Cell}, c.1 < d.1 → c ≠ d := fun hlt heq => hlt.ne (congrArg Prod.fst heq)
  have hperm : m.Perm m' := (List.perm_ext_iff_of_nodup (h.imp hne) (h'.imp hne)).mpr hcells
  exact hperm.eq_of_pairwise (fun _ _ _ _ hlt hgt => absurd hgt hlt.asymm) h h'

end Sys2Proof.Machine

namespace Sys2Proof
open Machine

/-- Settles O40: the step writes R20's record and nothing else. -/
theorem initializeResetsState : Obligations.InitializeResetsState := by
  intro s start rest hp
  exact ⟨_, step_pending hp, initCore_readReg start _, rfl, rfl, rfl, fun _ => initCore_stack start _, rfl, rfl,
    Display.cell_clear, rfl, fun _ => initCore_memRead_glyph start _, fun _ => initCore_memRead_high start _,
    rfl, rfl, rfl⟩

/-- Settles O41: a program that fits is a run of writes, and one that does not leaves the state as it is. -/
theorem loadProgramCopiesOrFails : Obligations.LoadProgramCopiesOrFails := by
  intro s bytes start rest hp
  constructor
  · intro hfits
    refine ⟨hostReply_loadProgram.trans (congrArg _ (decide_eq_true hfits)), _, step_pending hp,
      fun _ => loadProgram_memRead_loaded hfits, fun _ => loadProgram_memRead_outside hfits, ?_⟩
    rw [loadProgram_rest]
    rfl
  · intro hlong
    exact ⟨hostReply_loadProgram.trans (congrArg _ (decide_eq_false hlong.not_ge)),
      (step_pending hp).trans (congrArg Host.Outcome.next (loadProgram_fails hlong))⟩

/-- Settles O43: of the fields `initialize` writes only memory depends on the parameters, and the default table
leaves nothing listed. -/
theorem resetIsInitialize : Obligations.ResetIsInitialize := by
  intro s hconfig
  have hmem : Memory.initial Config.default.glyphTable = [] := initial_default
  simp only [State.initCore, State.reset, hconfig, hmem]

/-- Settles O44: an empty list is canonical, and there is no report. -/
theorem resetHasInvariant : Obligations.ResetHasInvariant :=
  ⟨rfl, List.forall_mem_nil _⟩

/-- Settles O46: canonical memories that read alike list the same cells, in the same order. -/
theorem canonicalMemoryExtensional : Obligations.CanonicalMemoryExtensional := by
  intro m m' hm hm' hread
  refine Memory.eq_of_mem_iff ((Memory.wf_iff m).mp hm).2 ((Memory.wf_iff m').mp hm').2 fun c => ?_
  rw [Memory.mem_iff_read hm, Memory.mem_iff_read hm', hread]

end Sys2Proof
end
